-- ==== Sys2Proof/Word.lean ====
section
/-! DEFINITION. The word types of the TCU (10_state.md R15: every register is 32 bits wide). -/

namespace Sys2Proof

/-- A register, a command word, a bus address or a bus datum: 32 bits. -/
abbrev Word := BitVec 32

/-- One byte of a register's byte image (20_memory.md R35). -/
abbrev Byte := BitVec 8

end Sys2Proof
end

