-- ==== Sys2Proof/Syntax.lean ====
section
/-! DEFINITION. The ten operations of the TCU, one constructor per row of the opcode map (30_encoding.md R51). -/

namespace Sys2Proof

/-- One TCU operation with the fields of its command word, taken without scaling or shifting (30_encoding.md R56).
The width of each field is its type (R46 to R50), so every term is a well-formed instruction. -/
inductive Instr where
  /-- Golay (23,12) encode of the data word `d` (40_fec.md R60). -/
  | golay (d : BitVec 12)
  /-- Raw DCS code at table index `i` (40_fec.md R63). -/
  | dcscode (i : BitVec 8)
  /-- DCS code word, code type DCS, not inverted (40_fec.md R64). -/
  | dcsw (i : BitVec 8)
  /-- DCS code word, code type DCS-Normal, inverted (40_fec.md R65). -/
  | dcswn (i : BitVec 8)
  /-- CTCSS frequency at table index `i` (41_tone.md R68). -/
  | ctfreq (i : BitVec 8)
  /-- CTCSS control word for `t` tenths of Hz (41_tone.md R69). -/
  | ctcw (t : BitVec 16)
  /-- Tone-generator scale word for `f` Hz (41_tone.md R70). -/
  | tgscale (f : BitVec 16)
  /-- Corrected dBm of the raw RSSI `r` in band `b` (42_rssi.md R74). -/
  | rssidbm (b : BitVec 8) (r : BitVec 16)
  /-- S-meter level of the i16 dBm pattern `d` (42_rssi.md R75). -/
  | slevel (d : BitVec 16)
  /-- "+dB over S9" of the i16 dBm pattern `d` (42_rssi.md R76). -/
  | plusdb (d : BitVec 16)
deriving DecidableEq, Repr

end Sys2Proof
end

