-- ==== Sys2Proof/Decode.lean ====
section
/-! DEFINITION. Command words to instructions and back (30_encoding.md). The decoder is total: every word is one row's
operation or is rejected by name (R52). -/

namespace Sys2Proof

/-- Why a word, or a list of bytes, is no instruction. -/
inductive DecodeError where
  /-- OP is 0x0 or 0xA to 0xF (30_encoding.md R53). -/
  | reservedOpcode
  /-- A defined opcode with a 1 in a bit its format marks reserved (30_encoding.md R54). -/
  | reservedBits
  /-- Fewer than the four bytes of a command word (30_encoding.md R43: one length, 32 bits). -/
  | truncated
deriving DecidableEq, Repr

/-- One row of the opcode map (30_encoding.md R51). -/
structure Row where
  mask : Word
  pattern : Word
  build : Word → Instr

/-! The fields of a command word (30_encoding.md R45 to R50). -/

/-- OP, `v[31:28]` (R43). -/
def fieldOp (v : Word) : BitVec 4 := v.extractLsb' 28 4
/-- D, `v[11:0]` (R46). -/
def fieldD (v : Word) : BitVec 12 := v.extractLsb' 0 12
/-- IDX, `v[7:0]` (R47, R48). -/
def fieldIdx (v : Word) : BitVec 8 := v.extractLsb' 0 8
/-- H, `v[15:0]` (R49, R50). -/
def fieldH (v : Word) : BitVec 16 := v.extractLsb' 0 16
/-- BAND, `v[23:16]` (R50). -/
def fieldBand (v : Word) : BitVec 8 := v.extractLsb' 16 8

/-- The opcode map (30_encoding.md R51). -/
def opcodeTable : List Row := [
  { mask := 0xFFFFF000#32, pattern := 0x10000000#32, build := fun v => .golay (fieldD v) },
  { mask := 0xFFFFFF00#32, pattern := 0x20000000#32, build := fun v => .dcscode (fieldIdx v) },
  { mask := 0xFFFFFF00#32, pattern := 0x30000000#32, build := fun v => .dcsw (fieldIdx v) },
  { mask := 0xFFFFFF00#32, pattern := 0x30000100#32, build := fun v => .dcswn (fieldIdx v) },
  { mask := 0xFFFFFF00#32, pattern := 0x40000000#32, build := fun v => .ctfreq (fieldIdx v) },
  { mask := 0xFFFF0000#32, pattern := 0x50000000#32, build := fun v => .ctcw (fieldH v) },
  { mask := 0xFFFF0000#32, pattern := 0x60000000#32, build := fun v => .tgscale (fieldH v) },
  { mask := 0xFF000000#32, pattern := 0x70000000#32, build := fun v => .rssidbm (fieldBand v) (fieldH v) },
  { mask := 0xFFFF0000#32, pattern := 0x80000000#32, build := fun v => .slevel (fieldH v) },
  { mask := 0xFFFF0000#32, pattern := 0x90000000#32, build := fun v => .plusdb (fieldH v) }]

/-- "A word v selects the row when v & mask = match" (30_encoding.md R51). -/
def Row.selects (r : Row) (v : Word) : Bool := v &&& r.mask == r.pattern

/-- `Legal(v)` (30_encoding.md R52). -/
def legal (v : Word) : Bool := opcodeTable.any fun r => r.selects v

/-- Opcodes 0x0 and 0xA to 0xF (30_encoding.md R53). -/
def opReserved (op : BitVec 4) : Bool := op == 0x0#4 || decide (0xA ≤ op.toNat)

/-- The decoder (30_encoding.md R51, R52), with the reason of R53 or R54 for an illegal word. -/
def decode (v : Word) : Except DecodeError Instr :=
  match opcodeTable.find? fun r => r.selects v with
  | some r => .ok (r.build v)
  | none => if opReserved (fieldOp v) then .error .reservedOpcode else .error .reservedBits

/-! Byte images, little-endian (20_memory.md R35). -/

/-- Byte `k` of a register image: bits `[8k+7:8k]` (20_memory.md R35). -/
def byteOf (v : Word) (k : Nat) : Byte := v.extractLsb' (8 * k) 8

/-- The register image as bytes, the lowest address first (20_memory.md R35). -/
def bytesOfWord (v : Word) : List Byte := [byteOf v 0, byteOf v 1, byteOf v 2, byteOf v 3]

/-- The word of a four-byte register image, the lowest address first (20_memory.md R35). -/
def wordOfBytes (b0 b1 b2 b3 : Byte) : Word := b3 ++ b2 ++ b1 ++ b0

/-- The decoder on bytes: the first command word of the list, and the rest. -/
def decodeBytes : List Byte → Except DecodeError (Instr × List Byte)
  | b0 :: b1 :: b2 :: b3 :: rest =>
    match decode (wordOfBytes b0 b1 b2 b3) with
    | .ok i => .ok (i, rest)
    | .error e => .error e
  | _ => .error .truncated

/-- The 32-bit word of an opcode-table row: the low `nbits` bits of `w`, every bit above them 0. -/
def tableWord (nbits w : Nat) : Word := BitVec.ofNat 32 (w % 2 ^ nbits)

/-- What the decoder reads from an opcode-table row's word (30_encoding.md R43: the only length is 32 bits). -/
def decodeTableWord (nbits w : Nat) : Option Instr :=
  if nbits ≤ 32 then
    match decodeBytes (bytesOfWord (tableWord nbits w)) with
    | .ok (i, _) => some i
    | .error _ => none
  else none

/-! The encoder, from the same formats (30_encoding.md R45, R51, R59). -/

/-- The command word of an instruction: its row's match value with the fields in place (30_encoding.md R59). -/
def encode : Instr → Word
  | .golay d => 0x10000000#32 ||| d.setWidth 32
  | .dcscode i => 0x20000000#32 ||| i.setWidth 32
  | .dcsw i => 0x30000000#32 ||| i.setWidth 32
  | .dcswn i => 0x30000100#32 ||| i.setWidth 32
  | .ctfreq i => 0x40000000#32 ||| i.setWidth 32
  | .ctcw t => 0x50000000#32 ||| t.setWidth 32
  | .tgscale f => 0x60000000#32 ||| f.setWidth 32
  | .rssidbm b r => 0x70000000#32 ||| (b.setWidth 32 <<< 16) ||| r.setWidth 32
  | .slevel d => 0x80000000#32 ||| d.setWidth 32
  | .plusdb d => 0x90000000#32 ||| d.setWidth 32

end Sys2Proof
end

