-- ==== Sys2Proof/Machine/Constants.lean ====
section
/-! DEFINITION. The named constants of 00_scope.md R6, each defined once. Their values are the spec's; the spec calls
them unaudited (UNVERIFIED, unsafe; log 10). -/

namespace Sys2Proof.Machine

/-- `GOLAY_POLY`, 0x08EA, in a running value of any width (40_fec.md R61). -/
def golayPoly (n : Nat) : BitVec n := BitVec.ofNat n 0x08EA
/-- `GOLAY_TEST_BIT`. -/
def golayTestBit : Nat := 12
/-- `GOLAY_ITER`. -/
def golayIter : Nat := 12
/-- `GOLAY_PAR_SHIFT`. -/
def golayParShift : Nat := 11
/-- The parity field of the running value, bits 11:1 (40_fec.md R60, 90_conflicts.md C3). -/
def golayParMask (n : Nat) : BitVec n := BitVec.ofNat n 0x0FFE
/-- `DCS_FRAME`. -/
def dcsFrame : BitVec 12 := 0x800#12
/-- `DCS_INV_MASK`. -/
def dcsInvMask : BitVec 23 := 0x7FFFFF#23
/-- `CTCSS_MUL`. -/
def ctcssMul : Word := 2065#32
/-- `CTCSS_DIV`. -/
def ctcssDiv : Word := 1000#32
/-- `TG_MUL`. -/
def tgMul : Word := 1353245#32
/-- `TG_RND`. -/
def tgRnd : Word := 65536#32
/-- `TG_SHIFT`. -/
def tgShift : Nat := 17
/-- `S0_DBM`. -/
def s0Dbm : Int := -121
/-- `S9_DBM`. -/
def s9Dbm : Int := -67
/-- `S_STEP_DB`. -/
def sStepDb : Nat := 6
/-- `S_MAX`. -/
def sMax : Nat := 10
/-- `TAIL_TONE`, tenths of Hz. No operation uses it (41_tone.md R71). -/
def tailTone : BitVec 16 := 550#16

end Sys2Proof.Machine
end

