-- ==== Sys2Proof/Config.lean ====
section
/-! DEFINITION. What an implementation of the TCU fixes: the parameters of 00_scope.md R5. -/

namespace Sys2Proof

/-- `N_CTCSS` (00_scope.md R5). -/
abbrev nCtcss : Nat := 50

/-- `N_DCS` (00_scope.md R5). -/
abbrev nDcs : Nat := 104

/-- The configuration, fixed for a run (10_state.md R28).
All of it is plain data. The types admit exactly the well-formed configurations (log 3): a DCS entry of
0x800 or more (10_state.md R25), a base that is no multiple of 16 and a band count outside 1..256
(00_scope.md R5) cannot be written down. -/
structure Config where
  /-- `TCU_BASE / 16`. -/
  window : BitVec 28
  /-- CTCSS_TABLE, tenths of Hz (10_state.md R24). -/
  ctcssTable : Vector (BitVec 16) nCtcss
  /-- DCS_TABLE, raw 11-bit DCS codes (10_state.md R24, R25). -/
  dcsTable : Vector (BitVec 11) nDcs
  /-- `N_BANDS - 1`. -/
  bandsPred : Fin 256
  /-- DBM_CORR, i16 bit patterns, dB (10_state.md R24, 42_rssi.md R72). -/
  dbmCorr : Vector (BitVec 16) (bandsPred.val + 1)
  /-- RSSI_BASE, the total function u16 -> i16 of 42_rssi.md R72 as its table: entry `r` is the i16 bit pattern
  of RSSI_BASE(r). -/
  rssiBase : Vector (BitVec 16) (2 ^ 16)
deriving DecidableEq, Repr, Inhabited

/-- `N_BANDS`, 1..256 (00_scope.md R5). -/
abbrev Config.nBands (c : Config) : Nat := c.bandsPred.val + 1

/-- `TCU_BASE`, a 32-bit byte address and a multiple of 16 (20_memory.md R31). -/
def Config.tcuBase (c : Config) : Word := c.window ++ 0#4

/-- RSSI_BASE as a function (42_rssi.md R72). -/
def Config.rssiBaseAt (c : Config) (r : BitVec 16) : BitVec 16 := c.rssiBase[r.toNat]'r.isLt

/-- The table of a function u16 -> i16: how a concrete RSSI_BASE is put into a configuration. -/
def Config.rssiTableOf (f : BitVec 16 → BitVec 16) : Vector (BitVec 16) (2 ^ 16) :=
  ⟨⟨(List.range' 0 (2 ^ 16)).map fun r => f (BitVec.ofNat 16 r)⟩, by simp⟩

/-- The configuration of the machine that was built (70_reset_and_hazards.md R98: "The build fixes the table
contents and RSSI_BASE"). Every parameter is OPEN (00_scope.md R5), so it has no body: nothing can be proved of a
particular content (DESIGN CHOICE for the form, safe; log 1). -/
opaque Config.build : Config

end Sys2Proof
end

