-- ==== Sys2Proof/Machine/State.lean ====
section
/-! DEFINITION. The TCU's state (10_state.md R28), its configuration held beside it, and the bus events and responses
through which the host drives and observes it (20_memory.md R34, 00_scope.md R11). -/

namespace Sys2Proof.Machine

/-- The complete mutable state of the TCU (10_state.md R28). CMD holds no state (R16) and the Golay running value is
not kept between operations (R26). -/
structure TcuState where
  /-- RES (10_state.md R17). -/
  res : Word
  /-- STS.VALID (10_state.md R19). -/
  valid : Bool
  /-- STS.IDXERR (10_state.md R20). -/
  idxerr : Bool
  /-- STS.ILLOP (10_state.md R21). -/
  illop : Bool
deriving DecidableEq, Repr

/-- The TCU after reset (10_state.md R27). -/
def TcuState.reset : TcuState := { res := 0#32, valid := false, idxerr := false, illop := false }

/-- Read or write (20_memory.md R34). -/
inductive AccessKind where
  | read
  | write
deriving DecidableEq, Repr

/-- One host access as the TCU sees it: kind, offset in the window, byte count, and the word of a write
(20_memory.md R34; a read's `v` is ignored). -/
structure Access where
  kind : AccessKind
  off : BitVec 4
  n : Nat
  v : Word
deriving DecidableEq, Repr

/-- One host access as the host issues it, at a 32-bit byte address (00_scope.md R9, 20_memory.md R31). -/
structure BusRequest where
  kind : AccessKind
  addr : Word
  n : Nat
  v : Word
deriving DecidableEq, Repr

/-- What reaches the TCU from outside, one event a step. -/
inductive BusEvent where
  /-- Bus master `m` makes the access `a` (20_memory.md R34, R38). -/
  | access (m : Nat) (a : Access)
  /-- The reset input is asserted between two accesses (70_reset_and_hazards.md R95). -/
  | reset
  /-- An access in progress while reset is asserted (70_reset_and_hazards.md R95, 93_implementation_defined.md I18). -/
  | accessOverlappingReset (m : Nat) (a : Access)
deriving DecidableEq, Repr

/-- The TCU's answer to one access (20_memory.md R34). A bus error carries no data (60_exceptions.md R87). -/
inductive BusResponse where
  | ok (data : Word)
  | busError
deriving DecidableEq, Repr

/-- What `Execute(v)` answers (30_encoding.md R44): a result placed in 32 bits, or IndexError. -/
inductive ExecResult where
  | value (r : Word)
  | indexError
deriving DecidableEq, Repr

/-- The machine: the configuration fixed for a run, the TCU's own state, and the host interface. -/
structure State where
  /-- Tables, bases and band count (10_state.md R24, R28). No step changes it. -/
  cfg : Config
  /-- The TCU's mutable state (10_state.md R28). -/
  tcu : TcuState
  /-- The one bus master seen so far (20_memory.md R38). The model's own field (DESIGN CHOICE, safe; log 5). -/
  owner : Option Nat
  /-- Events not yet taken, oldest first (20_memory.md R37). The model's own field (DESIGN CHOICE, safe; log 4). -/
  pending : List BusEvent
  /-- Responses given so far, newest first (00_scope.md R11). The model's own field (DESIGN CHOICE, safe; log 4). -/
  responses : List BusResponse
deriving DecidableEq, Repr

/-- Faults. There are none: "The TCU's state machine never stops or hangs: after any error it accepts the next access
normally" (60_exceptions.md R78), so IllegalCommand, IndexError and BusError are next states (log 6). Nobody raises
one. -/
inductive Fault where
deriving DecidableEq, Repr

/-- What the model gives no meaning. -/
inductive Refusal where
  /-- Raised by an arm of `exec` whose instruction has no meaning yet. No arm does. Safe. -/
  | notModelled (mnemonic : String)
  /-- Raised by `step` for an access of a second bus master: "A model with more than one agent issuing TCU accesses
  must refuse such a program" (20_memory.md R38). Safe. -/
  | secondBusMaster
  /-- Raised by `step` for an access that overlaps reset: "A model should not admit an access that overlaps reset"
  (70_reset_and_hazards.md R95; 93_implementation_defined.md I18: refuse). Safe. -/
  | accessOverlapsReset
deriving DecidableEq, Repr

/-- The machine right after reset (10_state.md R27): the configured contents, the reset values, and nothing issued yet
(R96: "After reset it waits for host accesses"; log 4, 5). -/
def State.reset : State :=
  { cfg := Config.build, tcu := TcuState.reset, owner := none, pending := [], responses := [] }

end Sys2Proof.Machine
end

