-- ==== Sys2Proof/Machine/Operands.lean ====
section
/-! DEFINITION. Operands and result placement (30_encoding.md R56, R57), the i16 reading of dBm values (42_rssi.md R73)
and the checked table look-up (60_exceptions.md R84). -/

namespace Sys2Proof.Machine

/-- `zext_32(r)`: an unsigned result in RES (30_encoding.md R57). -/
def placeUnsigned {n : Nat} (r : BitVec n) : Word := r.setWidth 32

/-- `sext_32(r)`: an i16 result in RES (30_encoding.md R57). -/
def placeSigned (r : BitVec 16) : Word := r.signExtend 32

/-- `as_i16(h)`: the dBm value of an i16 bit pattern (00_scope.md R8, 30_encoding.md R56). -/
def asI16 (h : BitVec 16) : Int := h.toInt

/-- `as_i16(trunc_16(x))` as a bit pattern: two's-complement wrap, no saturation (42_rssi.md R73). -/
def wrapI16 (x : Int) : BitVec 16 := BitVec.ofInt 16 x

/-- A look-up of a legal index, or IndexError without reading (60_exceptions.md R84). Indices are 0-based
(00_scope.md R10). -/
def lookup {α : Type} {n : Nat} (table : Vector α n) (i : BitVec 8) (use : α → Word) : ExecResult :=
  if h : i.toNat < n then .value (use table[i.toNat]) else .indexError

end Sys2Proof.Machine
end

