-- ==== Sys2Proof/Machine/Flags.lean ====
section
/-! DEFINITION. The status register STS (10_state.md R18 to R23). It has no other flags (R23). -/

namespace Sys2Proof.Machine

/-- STS as the host reads it: `zext_32({illop, idxerr, valid})`; bits 31:3 read as zero (10_state.md R18,
20_memory.md R34). -/
def TcuState.sts (t : TcuState) : Word :=
  (BitVec.ofBool t.illop ++ BitVec.ofBool t.idxerr ++ BitVec.ofBool t.valid).setWidth 32

/-- A command completed without error: STS.VALID <- 1 (10_state.md R19). -/
def TcuState.setValid (t : TcuState) : TcuState := { t with valid := true }

/-- `IndexErrorEntry`: IDXERR <- 1, VALID <- 0 (60_exceptions.md R85). -/
def TcuState.indexErrorEntry (t : TcuState) : TcuState := { t with idxerr := true, valid := false }

/-- `IllegalCommandEntry`: ILLOP <- 1, VALID <- 0 (60_exceptions.md R86). -/
def TcuState.illegalCommandEntry (t : TcuState) : TcuState := { t with illop := true, valid := false }

/-- `StsWrite`: a 32-bit host write of `v` to STS clears IDXERR where `v[1] = 1` and ILLOP where `v[2] = 1`
(10_state.md R22). This is the recovery from an error; there is no return instruction (60_exceptions.md R90). -/
def TcuState.stsWrite (t : TcuState) (v : Word) : TcuState :=
  { t with idxerr := t.idxerr && !v.getLsbD 1, illop := t.illop && !v.getLsbD 2 }

end Sys2Proof.Machine
end

