-- ==== Sys2Proof/Machine/Ops.lean ====
section
/-! DEFINITION. The shared operations on the state: ending a command with a result or an error entry, resetting the
TCU, and the bookkeeping of the host interface. -/

namespace Sys2Proof.Machine

/-- The end of a legal command (30_encoding.md R44): the result goes to RES and VALID is set, or the IndexError entry
is taken. -/
def TcuState.finish (t : TcuState) : ExecResult → TcuState
  | .value r => TcuState.setValid { t with res := r }
  | .indexError => t.indexErrorEntry

/-- The state with another TCU state. -/
def State.withTcu (s : State) (t : TcuState) : State := { s with tcu := t }

/-- `TcuState.finish` on the machine. -/
def State.finish (s : State) (r : ExecResult) : State := s.withTcu (s.tcu.finish r)

/-- The one entry into IllegalCommand (60_exceptions.md R86) on the machine. -/
def State.illegalCommand (s : State) : State := s.withTcu s.tcu.illegalCommandEntry

/-- Asserting reset: the TCU state takes the values of 10_state.md R27 (70_reset_and_hazards.md R95); the tables are
not changed (R97). -/
def State.resetTcu (s : State) : State := s.withTcu TcuState.reset

/-- The oldest event is taken, `rest` is left. -/
def State.take (s : State) (rest : List BusEvent) : State := { s with pending := rest }

/-- Master `m` is the one master (20_memory.md R38). -/
def State.own (s : State) (m : Nat) : State := { s with owner := some m }

/-- The TCU answers an access. -/
def State.respond (s : State) (r : BusResponse) : State := { s with responses := r :: s.responses }

/-- No other master than `m` has been seen (20_memory.md R38). -/
def State.ownedBy (s : State) (m : Nat) : Bool := s.owner.all (· == m)

end Sys2Proof.Machine
end

