-- ==== Sys2Proof/Machine/Fec.lean ====
section
/-! DEFINITION. The Golay (23,12) encoder and the DCS operations (40_fec.md). -/

namespace Sys2Proof.Machine

/-- One iteration on the running value: shift left by 1 and, if bit 12 becomes set, XOR with the generator polynomial
(40_fec.md R60). Written for any width, since R61 allows any from 13 bits up. -/
def golayStep {n : Nat} (w : BitVec n) : BitVec n :=
  let shifted := w <<< 1
  if shifted.getLsbD golayTestBit then shifted ^^^ golayPoly n else shifted

/-- `k` iterations. -/
def golayIterate {n : Nat} : Nat → BitVec n → BitVec n
  | 0, w => w
  | k + 1, w => golayIterate k (golayStep w)

/-- `parityBits`, bits 11:1 of the running value after 12 iterations, computed in a running value of `n` bits
(40_fec.md R60, 90_conflicts.md C3). -/
def golayParityBits (n : Nat) (d : BitVec 12) : BitVec 12 :=
  (golayIterate golayIter (d.setWidth n) &&& golayParMask n).setWidth 12

/-- The code word: `data | (parityBits << 11)` (40_fec.md R60), from a 24-bit running value. -/
def golayEncode (d : BitVec 12) : BitVec 23 :=
  d.setWidth 23 ||| ((golayParityBits 24 d).setWidth 23 <<< golayParShift)

/-- The code word of a DCS table entry: the framing bit ORed on, then Golay-encoded (40_fec.md R64). -/
def dcsCodeword (entry : BitVec 11) : BitVec 23 := golayEncode (entry.setWidth 12 ||| dcsFrame)

/-- `Execute` for GOLAY (40_fec.md R60). -/
def executeGolay (d : BitVec 12) : ExecResult := .value (placeUnsigned (golayEncode d))

/-- `Execute` for DCSCODE (40_fec.md R63). -/
def executeDcscode (c : Config) (i : BitVec 8) : ExecResult := lookup c.dcsTable i placeUnsigned

/-- `Execute` for DCSW (40_fec.md R64). The mapping of code types to inversion is the spec's, UNVERIFIED there
(unsafe; log 11). -/
def executeDcsw (c : Config) (i : BitVec 8) : ExecResult :=
  lookup c.dcsTable i fun e => placeUnsigned (dcsCodeword e)

/-- `Execute` for DCSWN (40_fec.md R65): all 23 bits inverted (log 11). -/
def executeDcswn (c : Config) (i : BitVec 8) : ExecResult :=
  lookup c.dcsTable i fun e => placeUnsigned (dcsCodeword e ^^^ dcsInvMask)

/-- GOLAY (40_fec.md R60). -/
def execGolay (d : BitVec 12) (s : State) : Host.Outcome State Fault Refusal := .next (s.finish (executeGolay d))

/-- DCSCODE (40_fec.md R63). -/
def execDcscode (i : BitVec 8) (s : State) : Host.Outcome State Fault Refusal :=
  .next (s.finish (executeDcscode s.cfg i))

/-- DCSW (40_fec.md R64). -/
def execDcsw (i : BitVec 8) (s : State) : Host.Outcome State Fault Refusal := .next (s.finish (executeDcsw s.cfg i))

/-- DCSWN (40_fec.md R65). -/
def execDcswn (i : BitVec 8) (s : State) : Host.Outcome State Fault Refusal := .next (s.finish (executeDcswn s.cfg i))

end Sys2Proof.Machine
end

