-- ==== Sys2Proof/Machine/Rssi.lean ====
section
/-! DEFINITION. RSSI to dBm, and dBm to S-meter level and "+dB over S9" (42_rssi.md). -/

namespace Sys2Proof.Machine

/-- The corrected dBm: base conversion plus correction, wrapping in i16 (42_rssi.md R73, R74). -/
def correctedDbm (base corr : BitVec 16) : BitVec 16 := wrapI16 (asI16 base + asI16 corr)

/-- The top of S-level `n`: -121 + 6n dBm (42_rssi.md R75). -/
def levelTop (n : Nat) : Int := s0Dbm + sStepDb * n

/-- The S-meter level of a dBm value: 10 from -67 dBm up, else the least `n` in 0..9 with `d ≤ -121 + 6n`; `n = 9`
always qualifies (42_rssi.md R75, 90_conflicts.md C1 and C2). -/
def sLevel (d : Int) : Nat :=
  if s9Dbm ≤ d then sMax else ((List.range sMax).find? fun n => decide (d ≤ levelTop n)).getD sMax

/-- The "+dB over S9" figure of a dBm value, 0 below -67 dBm (42_rssi.md R76). -/
def plusDb (d : Int) : BitVec 16 := if s9Dbm ≤ d then wrapI16 (d - s9Dbm) else 0#16

/-- `Execute` for RSSIDBM (42_rssi.md R74). -/
def executeRssidbm (c : Config) (b : BitVec 8) (r : BitVec 16) : ExecResult :=
  lookup c.dbmCorr b fun corr => placeSigned (correctedDbm (c.rssiBaseAt r) corr)

/-- `Execute` for SLEVEL (42_rssi.md R75). -/
def executeSlevel (d : BitVec 16) : ExecResult := .value (placeUnsigned (BitVec.ofNat 4 (sLevel (asI16 d))))

/-- `Execute` for PLUSDB (42_rssi.md R76). -/
def executePlusdb (d : BitVec 16) : ExecResult := .value (placeSigned (plusDb (asI16 d)))

/-- RSSIDBM (42_rssi.md R74). -/
def execRssidbm (b : BitVec 8) (r : BitVec 16) (s : State) : Host.Outcome State Fault Refusal :=
  .next (s.finish (executeRssidbm s.cfg b r))

/-- SLEVEL (42_rssi.md R75). -/
def execSlevel (d : BitVec 16) (s : State) : Host.Outcome State Fault Refusal := .next (s.finish (executeSlevel d))

/-- PLUSDB (42_rssi.md R76). -/
def execPlusdb (d : BitVec 16) (s : State) : Host.Outcome State Fault Refusal := .next (s.finish (executePlusdb d))

end Sys2Proof.Machine
end

