-- ==== Sys2Proof/Machine/Tone.lean ====
section
/-! DEFINITION. The CTCSS look-up and the tone-frequency scalings (41_tone.md). Products and sums are modulo 2^32, the
division truncates, the shift is logical, and the result is cut to 16 bits (R67). -/

namespace Sys2Proof.Machine

/-- The CTCSS control word (41_tone.md R69). -/
def ctcssControlWord (t : BitVec 16) : BitVec 16 := (t.setWidth 32 * ctcssMul / ctcssDiv).setWidth 16

/-- The tone-generator scale word (41_tone.md R70). -/
def toneGeneratorScale (f : BitVec 16) : BitVec 16 := ((f.setWidth 32 * tgMul + tgRnd) >>> tgShift).setWidth 16

/-- `Execute` for CTFREQ (41_tone.md R68). -/
def executeCtfreq (c : Config) (i : BitVec 8) : ExecResult := lookup c.ctcssTable i placeUnsigned

/-- `Execute` for CTCW (41_tone.md R69). -/
def executeCtcw (t : BitVec 16) : ExecResult := .value (placeUnsigned (ctcssControlWord t))

/-- `Execute` for TGSCALE (41_tone.md R70). -/
def executeTgscale (f : BitVec 16) : ExecResult := .value (placeUnsigned (toneGeneratorScale f))

/-- CTFREQ (41_tone.md R68). -/
def execCtfreq (i : BitVec 8) (s : State) : Host.Outcome State Fault Refusal :=
  .next (s.finish (executeCtfreq s.cfg i))

/-- CTCW (41_tone.md R69). -/
def execCtcw (t : BitVec 16) (s : State) : Host.Outcome State Fault Refusal := .next (s.finish (executeCtcw t))

/-- TGSCALE (41_tone.md R70). -/
def execTgscale (f : BitVec 16) (s : State) : Host.Outcome State Fault Refusal := .next (s.finish (executeTgscale f))

end Sys2Proof.Machine
end

