-- ==== Sys2Proof/Machine/Dispatch.lean ====
section
/-! DEFINITION. One arm per operation of the opcode map (30_encoding.md R51). -/

namespace Sys2Proof.Machine

/-- What a legal command does to the machine (30_encoding.md R44). -/
def exec (i : Instr) (s : State) : Host.Outcome State Fault Refusal :=
  match i with
  | .golay d => Sys2Proof.Machine.execGolay d s
  | .dcscode idx => Sys2Proof.Machine.execDcscode idx s
  | .dcsw idx => Sys2Proof.Machine.execDcsw idx s
  | .dcswn idx => Sys2Proof.Machine.execDcswn idx s
  | .ctfreq idx => Sys2Proof.Machine.execCtfreq idx s
  | .ctcw t => Sys2Proof.Machine.execCtcw t s
  | .tgscale f => Sys2Proof.Machine.execTgscale f s
  | .rssidbm b r => Sys2Proof.Machine.execRssidbm b r s
  | .slevel d => Sys2Proof.Machine.execSlevel d s
  | .plusdb d => Sys2Proof.Machine.execPlusdb d s

end Sys2Proof.Machine
end

