-- ==== Sys2Proof/Machine/Bus.lean ====
section
/-! DEFINITION. The register window (20_memory.md): which addresses are the TCU's, and what each access does. -/

namespace Sys2Proof.Machine

/-! ### Offsets of the window (10_state.md R15) -/

/-- CMD. -/
def cmdOff : BitVec 4 := 0x0#4
/-- RES. -/
def resOff : BitVec 4 := 0x4#4
/-- STS. -/
def stsOff : BitVec 4 := 0x8#4
/-- The reserved offset. -/
def reservedOff : BitVec 4 := 0xC#4

/-! ### What the host issues and the platform routes (20_memory.md R31) -/

/-- `MemRead(addr, n)` (00_scope.md R9). -/
def memRead (addr : Word) (n : Nat) : BusRequest := { kind := .read, addr := addr, n := n, v := 0#32 }

/-- `MemWrite(addr, n, v)` (00_scope.md R9). -/
def memWrite (addr : Word) (n : Nat) (v : Word) : BusRequest := { kind := .write, addr := addr, n := n, v := v }

/-- `off = addr - TCU_BASE` (20_memory.md R34). -/
def windowOffset (c : Config) (addr : Word) : Word := addr - c.tcuBase

/-- The address lies in `TCU_BASE .. TCU_BASE + 0xF` (20_memory.md R30). -/
def inWindow (c : Config) (addr : Word) : Bool := decide (windowOffset c addr < 16#32)

/-- The platform routes to the TCU exactly the accesses whose address lies in the window; the rest are not the TCU's
concern and never reach it (20_memory.md R31; log 7). -/
def route (c : Config) (q : BusRequest) : Option Access :=
  if inWindow c q.addr then
    some { kind := q.kind, off := (windowOffset c q.addr).setWidth 4, n := q.n, v := q.v }
  else none

/-- Master `m` issues a request: it joins the TCU's queue, behind every earlier one, if it is routed there
(20_memory.md R31, R37). -/
def State.issue (s : State) (m : Nat) (q : BusRequest) : State :=
  match route s.cfg q with
  | some a => { s with pending := s.pending ++ [.access m a] }
  | none => s

/-- The access that writes the command word `v` to CMD. -/
def cmdWrite (v : Word) : Access := { kind := .write, off := cmdOff, n := 4, v := v }

/-! ### What an access does (20_memory.md R34) -/

/-- Not a 32-bit access, misaligned, or at offset 0xC (20_memory.md R32, R33). -/
def Access.isBusError (a : Access) : Bool :=
  a.n != 4 || a.off.toNat % 4 != 0 || a.off == reservedOff

/-- The value an aligned read returns: CMD reads as 0, RES its value, STS its flags (20_memory.md R34). -/
def TcuState.readRegister (t : TcuState) (off : BitVec 4) : Word :=
  if off = cmdOff then 0#32 else if off = resOff then t.res else t.sts

/-- The byte at `TCU_BASE + off + k` of a register image, little-endian (20_memory.md R35). No access reads it: a bus
bridge may show it (log 9). -/
def TcuState.imageByte (t : TcuState) (off : BitVec 4) (k : Nat) : Byte := byteOf (t.readRegister off) k

/-- The command cycle (30_encoding.md R44): a legal word runs its operation, an illegal one enters IllegalCommand. -/
def command (v : Word) (s : State) : Host.Outcome State Fault Refusal :=
  match decode v with
  | .ok i => exec i s
  | .error _ => .next s.illegalCommand

/-- An aligned 32-bit write: CMD runs a command, RES ignores it, STS clears flags (20_memory.md R34). -/
def writeRegister (off : BitVec 4) (v : Word) (s : State) : Host.Outcome State Fault Refusal :=
  if off = cmdOff then command v s
  else if off = resOff then .next s
  else .next (s.withTcu (s.tcu.stsWrite v))

/-- `TcuAccess`: one host access with its response (20_memory.md R34). A bus error is decided before any register is
read or written (60_exceptions.md R82, R88). -/
def access (a : Access) (s : State) : Host.Outcome State Fault Refusal :=
  if a.isBusError then .next (s.respond .busError)
  else
    match a.kind with
    | .read => .next (s.respond (.ok (s.tcu.readRegister a.off)))
    | .write => writeRegister a.off a.v (s.respond (.ok 0#32))

/-- One event, already taken from the queue: an access of the one master, a reset, or one of the two things a model
refuses (20_memory.md R38, 70_reset_and_hazards.md R95). -/
def takeEvent (e : BusEvent) (s : State) : Host.Outcome State Fault Refusal :=
  match e with
  | .access m a => if s.ownedBy m then access a (s.own m) else .refused .secondBusMaster
  | .reset => .next s.resetTcu
  | .accessOverlappingReset _ _ => .refused .accessOverlapsReset

end Sys2Proof.Machine
end

