-- ==== Sys2Proof/Machine/Step.lean ====
section
/-! DEFINITION. The step: the oldest pending event, or waiting. -/

namespace Sys2Proof.Machine

/-- One step: the oldest event is taken (20_memory.md R34, R37; 70_reset_and_hazards.md R95); with none, the TCU waits
(R96; log 4). -/
def step (s : State) : Host.Outcome State Fault Refusal :=
  match s.pending with
  | [] => .next s
  | e :: rest => takeEvent e (s.take rest)

/-- `s` with the command word of an opcode-table row written to CMD as the very next event, by the master the machine
already has. The TCU fetches nothing (10_state.md R14): its instruction stream is the CMD writes (log 4, 8). -/
def State.withFetchWord (s : State) (nbits w : Nat) : State :=
  { s with pending := .access (s.owner.getD 0) (cmdWrite (tableWord nbits w)) :: s.pending }

end Sys2Proof.Machine
end

