-- ==== Sys2Proof/Assembly.lean ====
section
/-! DEFINITION. The lines of a TCU host program (30_encoding.md R59), with immediates as integers, as they are
written. -/

namespace Sys2Proof

/-- The code types of the source that reach the TCU (00_scope.md R12). -/
inductive CodeType where
  /-- The code type the source calls "inverted" DCS; its word is sent without inversion. -/
  | dcs
  /-- The code type the source calls "non-inverted" DCS; its word is inverted. -/
  | dcsNormal
deriving DecidableEq, Repr

/-- One line of a host program: one host bus access or one command (30_encoding.md R59). -/
inductive AsmLine where
  | golay (d : Int)
  | dcscode (i : Int)
  | dcsw (i : Int)
  | dcswn (i : Int)
  | ctfreq (i : Int)
  | ctcw (t : Int)
  | tgscale (f : Int)
  | rssidbm (b r : Int)
  | slevel (d : Int)
  | plusdb (d : Int)
  /-- `CMD.W #v`: the raw word, legal or not. -/
  | cmdW (v : Int)
  /-- `RES.R -> x`. -/
  | resR
  /-- `STS.R -> x`. -/
  | stsR
  /-- `STS.W #m`. -/
  | stsW (m : Int)
  /-- The pseudo-instruction `DCSWORD <type>, #i`. -/
  | dcsword (ty : CodeType) (i : Int)
  /-- The pseudo-instruction `CLRSTS`. -/
  | clrsts
deriving DecidableEq, Repr

end Sys2Proof
end

