-- ==== Sys2Proof/WellFormed.lean ====
section
/-! DEFINITION. Which assembler lines are well formed (30_encoding.md R59: "An assembler refuses an immediate outside
its stated range. It does not truncate it."). A term of `Instr` needs no check: its field widths are types. -/

namespace Sys2Proof

/-- `lo ≤ x ≤ hi`. -/
def inRange (lo hi x : Int) : Bool := decide (lo ≤ x) && decide (x ≤ hi)

/-- A line whose immediates are in the ranges of 30_encoding.md R59.
R59 states no range for `CMD.W`, `STS.W`, `PLUSDB` and the index lines after `DCSCODE`; theirs are DEDUCED (safe;
log 16). -/
def AsmLine.wellFormed : AsmLine → Bool
  | .golay d => inRange 0 0xFFF d
  | .dcscode i => inRange 0 0xFF i
  | .dcsw i => inRange 0 0xFF i
  | .dcswn i => inRange 0 0xFF i
  | .ctfreq i => inRange 0 0xFF i
  | .ctcw t => inRange 0 0xFFFF t
  | .tgscale f => inRange 0 0xFFFF f
  | .rssidbm b r => inRange 0 0xFF b && inRange 0 0xFFFF r
  | .slevel d => inRange (-32768) 32767 d
  | .plusdb d => inRange (-32768) 32767 d
  | .cmdW v => inRange 0 0xFFFFFFFF v
  | .resR => true
  | .stsR => true
  | .stsW m => inRange 0 0xFFFFFFFF m
  | .dcsword _ i => inRange 0 0xFF i
  | .clrsts => true

end Sys2Proof
end

