-- ==== Sys2Proof/Machine/Assembler.lean ====
section
/-! DEFINITION. The assembler of host programs (30_encoding.md R59): each line is one bus access. -/

namespace Sys2Proof.Machine

/-- The write to CMD of an instruction's word (30_encoding.md R59). -/
def commandLine (c : Config) (i : Instr) : BusRequest := memWrite c.tcuBase 4 (encode i)

/-- The bus request of a line whose immediates are in range: CMD is at TCU_BASE + 0x0, RES at + 0x4, STS at + 0x8
(10_state.md R15); a dBm immediate is `trunc_16(d)` (30_encoding.md R59). -/
def lineRequest (c : Config) : AsmLine → BusRequest
  | .golay d => commandLine c (.golay (BitVec.ofInt 12 d))
  | .dcscode i => commandLine c (.dcscode (BitVec.ofInt 8 i))
  | .dcsw i => commandLine c (.dcsw (BitVec.ofInt 8 i))
  | .dcswn i => commandLine c (.dcswn (BitVec.ofInt 8 i))
  | .ctfreq i => commandLine c (.ctfreq (BitVec.ofInt 8 i))
  | .ctcw t => commandLine c (.ctcw (BitVec.ofInt 16 t))
  | .tgscale f => commandLine c (.tgscale (BitVec.ofInt 16 f))
  | .rssidbm b r => commandLine c (.rssidbm (BitVec.ofInt 8 b) (BitVec.ofInt 16 r))
  | .slevel d => commandLine c (.slevel (BitVec.ofInt 16 d))
  | .plusdb d => commandLine c (.plusdb (BitVec.ofInt 16 d))
  | .cmdW v => memWrite c.tcuBase 4 (BitVec.ofInt 32 v)
  | .resR => memRead (c.tcuBase + 4#32) 4
  | .stsR => memRead (c.tcuBase + 8#32) 4
  | .stsW m => memWrite (c.tcuBase + 8#32) 4 (BitVec.ofInt 32 m)
  | .dcsword .dcs i => commandLine c (.dcsw (BitVec.ofInt 8 i))
  | .dcsword .dcsNormal i => commandLine c (.dcswn (BitVec.ofInt 8 i))
  | .clrsts => memWrite (c.tcuBase + 8#32) 4 6#32

/-- Assemble a line: refused outside its stated ranges, never truncated (30_encoding.md R59). -/
def assemble (c : Config) (l : AsmLine) : Option BusRequest :=
  if l.wellFormed then some (lineRequest c l) else none

end Sys2Proof.Machine
end

