-- ==== Sys2Proof/Safety.lean ====
section
/-! DEFINITION. The terms the claims are stated in. Nothing here is used by the machine. -/

namespace Sys2Proof.Safety

open Sys2Proof.Machine

/-! ### What a rule leaves behind, written out -/

/-- A command completed with RES = `r`: VALID is 1, everything else is as before (30_encoding.md R44). -/
def afterResult (s : State) (r : Word) : State := { s with tcu := { s.tcu with res := r, valid := true } }

/-- A command ended in IndexError: IDXERR 1, VALID 0, everything else as before (60_exceptions.md R85). -/
def afterIndexError (s : State) : State := { s with tcu := { s.tcu with idxerr := true, valid := false } }

/-- A command ended in IllegalCommand: ILLOP 1, VALID 0, everything else as before (60_exceptions.md R86). -/
def afterIllegalCommand (s : State) : State := { s with tcu := { s.tcu with illop := true, valid := false } }

/-- The host interface after master `m`'s access was taken and answered; the TCU state and the configuration are as
before. -/
def answered (s : State) (m : Nat) (rest : List BusEvent) (r : BusResponse) : State :=
  { s with owner := some m, pending := rest, responses := r :: s.responses }

/-! ### Accesses -/

/-- No other master than `m` has made an access (20_memory.md R38). -/
def mayAccess (s : State) (m : Nat) : Prop := s.owner = none ∨ s.owner = some m

/-- The accesses that are not 32-bit, or misaligned, or at offset 0xC (20_memory.md R32, R33). -/
def badAccess (a : Access) : Prop := a.n ≠ 4 ∨ a.off.toNat % 4 ≠ 0 ∨ a.off = 0xC#4

/-- A 32-bit read at an offset. -/
def read32 (off : BitVec 4) : Access := { kind := .read, off := off, n := 4, v := 0#32 }

/-- A 32-bit write at an offset. -/
def write32 (off : BitVec 4) (v : Word) : Access := { kind := .write, off := off, n := 4, v := v }

/-- `x` is STS with these three flags: bits 31:3 read as zero (10_state.md R18). -/
def stsShows (x : Word) (valid idxerr illop : Bool) : Prop :=
  x.getLsbD 0 = valid ∧ x.getLsbD 1 = idxerr ∧ x.getLsbD 2 = illop ∧ ∀ k, 3 ≤ k → x.getLsbD k = false

/-- If master `m` writes `v` to CMD and then at once reads the register at `off`, the read answers `x`. -/
def readAfterCommand (s : State) (m : Nat) (v : Word) (off : BitVec 4) (x : Word) : Prop :=
  ∀ rest, s.pending = .access m (write32 0x0#4 v) :: .access m (read32 off) :: rest →
    ∃ t, Sys2Proof.core.run 2 s = .next t ∧ t.responses = .ok x :: .ok 0#32 :: s.responses

/-- The event is a 32-bit write to CMD. -/
def isCommand (e : BusEvent) : Prop := ∃ m v, e = .access m (write32 0x0#4 v)

/-- The event is an access. -/
def isAccess : BusEvent → Bool
  | .access _ _ => true
  | .reset => false
  | .accessOverlappingReset _ _ => false

/-- A program of one master: its accesses, and resets between them (20_memory.md R38, 70_reset_and_hazards.md R95). -/
def soleMaster (m : Nat) (events : List BusEvent) : Prop := ∀ e ∈ events, e = .reset ∨ ∃ a, e = .access m a

/-! ### Commands -/

/-- The legal command's index is outside its table (60_exceptions.md R81). -/
def indexOutOfRange (c : Config) : Instr → Prop
  | .golay _ => False
  | .dcscode i => 104 ≤ i.toNat
  | .dcsw i => 104 ≤ i.toNat
  | .dcswn i => 104 ≤ i.toNat
  | .ctfreq i => 50 ≤ i.toNat
  | .ctcw _ => False
  | .tgscale _ => False
  | .rssidbm b _ => c.nBands ≤ b.toNat
  | .slevel _ => False
  | .plusdb _ => False

/-- `r` is what some command leaves in RES when it completes under the configuration `c`. -/
def isResultUnder (c : Config) (r : Word) : Prop :=
  ∃ i s t, s.cfg = c ∧ exec i s = .next t ∧ t.tcu.valid = true ∧ t.tcu.res = r

/-- `r` is placed as 30_encoding.md R57 says: zero-extended from at most 23 bits, or sign-extended from an i16. -/
def isPlaced (r : Word) : Prop := r.toNat < 2 ^ 23 ∨ ∃ x : BitVec 16, r = x.signExtend 32

/-- What RES always holds (10_state.md R17, 30_encoding.md R57): its reset value or some command's result under this
configuration, well placed. Of VALID it says nothing. -/
def resMeaningful (s : State) : Prop := isPlaced s.tcu.res ∧ (s.tcu.res = 0#32 ∨ isResultUnder s.cfg s.tcu.res)

/-! ### The Golay code (40_fec.md R62) -/

/-- The number of 1 bits. -/
def weight {n : Nat} (x : BitVec n) : Nat := ((List.range n).filter fun k => x.getLsbD k).length

/-- The carry-less multiple `q(x) · g(x)` of the generator g(x) = 0xC75, over GF(2) (40_fec.md R62 item 1). -/
def generatorTimes (q : BitVec 12) : BitVec 23 :=
  (List.range 12).foldl (fun acc k => if q.getLsbD k then acc ^^^ (0xC75#23 <<< k) else acc) 0#23

end Sys2Proof.Safety
end

