-- ==== Sys2Proof/Certificates/Slice0/Obligations.lean ====
section
/-! DEFINITION. The statements for the provers. Each docstring names the rule of spec/ it formalises. -/

open Sys2Proof Sys2Proof.Machine Sys2Proof.Safety

/-! ### Encoding (30_encoding.md) -/

/-- Decoding the word of an instruction gives the instruction back, every operand at every value
(30_encoding.md R45 to R51). -/
def Obligations.DecodeOfEncodeIsSame : Prop := ∀ i : Instr, decode (encode i) = .ok i

/-- An accepted word is exactly the word of the instruction it decodes to: no bit is dropped (30_encoding.md R51, R55). -/
def Obligations.EncodeOfDecodeIsSame : Prop := ∀ (v : Word) (i : Instr), decode v = .ok i → encode i = v

/-- 30_encoding.md R52: legal words are exactly those some row of R51 selects, and the decoder accepts exactly them. -/
def Obligations.LegalWordsAreTheTableRows : Prop :=
  ∀ v : Word,
    (legal v = true ↔
      ∃ row ∈ [(0x10000000#32, 0xFFFFF000#32), (0x20000000#32, 0xFFFFFF00#32), (0x30000000#32, 0xFFFFFF00#32),
          (0x30000100#32, 0xFFFFFF00#32), (0x40000000#32, 0xFFFFFF00#32), (0x50000000#32, 0xFFFF0000#32),
          (0x60000000#32, 0xFFFF0000#32), (0x70000000#32, 0xFF000000#32), (0x80000000#32, 0xFFFF0000#32),
          (0x90000000#32, 0xFFFF0000#32)], v &&& row.2 = row.1) ∧
    ((∃ i, decode v = .ok i) ↔ legal v = true)

/-- 30_encoding.md R51: "No two rows match the same word". -/
def Obligations.TableRowsDoNotOverlap : Prop :=
  opcodeTable.Pairwise fun r r' => ∀ v : Word, ¬ (r.selects v = true ∧ r'.selects v = true)

/-- 30_encoding.md R53: a reserved opcode is illegal whatever the other bits, and never a no-op. -/
def Obligations.ReservedOpcodesAreIllegal : Prop :=
  ∀ (v : Word) (s : State), v.extractLsb' 28 4 = 0x0#4 ∨ 0xA#4 ≤ v.extractLsb' 28 4 →
    decode v = .error .reservedOpcode ∧ command v s = .next (afterIllegalCommand s)

/-- 30_encoding.md R54: a defined opcode with a 1 in a bit its format marks reserved (R45) is illegal. -/
def Obligations.ReservedBitsAreIllegal : Prop :=
  ∀ (v : Word) (s : State),
    ((v.extractLsb' 28 4 = 0x1#4 ∧ v.extractLsb' 12 16 ≠ 0#16) ∨
     (v.extractLsb' 28 4 = 0x2#4 ∧ v.extractLsb' 8 20 ≠ 0#20) ∨
     (v.extractLsb' 28 4 = 0x3#4 ∧ v.extractLsb' 9 19 ≠ 0#19) ∨
     (v.extractLsb' 28 4 = 0x4#4 ∧ v.extractLsb' 8 20 ≠ 0#20) ∨
     (v.extractLsb' 28 4 = 0x5#4 ∧ v.extractLsb' 16 12 ≠ 0#12) ∨
     (v.extractLsb' 28 4 = 0x6#4 ∧ v.extractLsb' 16 12 ≠ 0#12) ∨
     (v.extractLsb' 28 4 = 0x7#4 ∧ v.extractLsb' 24 4 ≠ 0#4) ∨
     (v.extractLsb' 28 4 = 0x8#4 ∧ v.extractLsb' 16 12 ≠ 0#12) ∨
     (v.extractLsb' 28 4 = 0x9#4 ∧ v.extractLsb' 16 12 ≠ 0#12)) →
    decode v = .error .reservedBits ∧ command v s = .next (afterIllegalCommand s)

/-- Words of 95_test_vectors.md decode to the operations they stand for there. -/
def Obligations.SpecWordsDecode : Prop :=
  decode 0x10000819#32 = .ok (.golay 0x819#12) ∧ decode 0x20000067#32 = .ok (.dcscode 103#8) ∧
  decode 0x30000003#32 = .ok (.dcsw 3#8) ∧ decode 0x30000103#32 = .ok (.dcswn 3#8) ∧
  decode 0x40000008#32 = .ok (.ctfreq 8#8) ∧ decode 0x50000375#32 = .ok (.ctcw 885#16) ∧
  decode 0x600003E8#32 = .ok (.tgscale 1000#16) ∧ decode 0x700100C8#32 = .ok (.rssidbm 1#8 200#16) ∧
  decode 0x8000FFBC#32 = .ok (.slevel (BitVec.ofInt 16 (-68))) ∧
  decode 0x9000FFC7#32 = .ok (.plusdb (BitVec.ofInt 16 (-57))) ∧
  decode 0x00000000#32 = .error .reservedOpcode ∧ decode 0x30000200#32 = .error .reservedBits

/-- 20_memory.md R35: byte `k` of a register's image is bits `[8k+7:8k]`, and the four bytes from the lowest address
up decode as the word. The byte image as a function that no access reads is the model's (log 9). -/
def Obligations.RegisterImagesAreLittleEndian : Prop :=
  (∀ (t : TcuState) (off : BitVec 4) (k j : Nat), k < 4 → j < 8 →
    (t.imageByte off k).getLsbD j = (t.readRegister off).getLsbD (8 * k + j)) ∧
  (∀ (v : Word) (i : Instr) (rest : List Byte), decode v = .ok i →
    decodeBytes (byteOf v 0 :: byteOf v 1 :: byteOf v 2 :: byteOf v 3 :: rest) = .ok (i, rest))

/-- 30_encoding.md R59: what each line assembles to, and that an immediate outside its stated range is refused, not
truncated. (The ranges R59 leaves unstated, those of `CMD.W`, `STS.W`, `PLUSDB` and the index lines after `DCSCODE`,
are the model's reading: log 16.) -/
def Obligations.AssemblerLines : Prop :=
  ∀ (c : Config) (x y : Int),
    let cmd (w : Word) : BusRequest := { kind := .write, addr := c.tcuBase, n := 4, v := w }
    (assemble c (.golay x) =
      if 0 ≤ x ∧ x ≤ 0xFFF then some (cmd (0x10000000#32 ||| BitVec.ofInt 32 x)) else none) ∧
    (assemble c (.dcscode x) =
      if 0 ≤ x ∧ x ≤ 0xFF then some (cmd (0x20000000#32 ||| BitVec.ofInt 32 x)) else none) ∧
    (assemble c (.dcsw x) =
      if 0 ≤ x ∧ x ≤ 0xFF then some (cmd (0x30000000#32 ||| BitVec.ofInt 32 x)) else none) ∧
    (assemble c (.dcswn x) =
      if 0 ≤ x ∧ x ≤ 0xFF then some (cmd (0x30000100#32 ||| BitVec.ofInt 32 x)) else none) ∧
    (assemble c (.ctfreq x) =
      if 0 ≤ x ∧ x ≤ 0xFF then some (cmd (0x40000000#32 ||| BitVec.ofInt 32 x)) else none) ∧
    (assemble c (.ctcw x) =
      if 0 ≤ x ∧ x ≤ 0xFFFF then some (cmd (0x50000000#32 ||| BitVec.ofInt 32 x)) else none) ∧
    (assemble c (.tgscale x) =
      if 0 ≤ x ∧ x ≤ 0xFFFF then some (cmd (0x60000000#32 ||| BitVec.ofInt 32 x)) else none) ∧
    (assemble c (.rssidbm x y) =
      if (0 ≤ x ∧ x ≤ 0xFF) ∧ 0 ≤ y ∧ y ≤ 0xFFFF then
        some (cmd (0x70000000#32 ||| (BitVec.ofInt 32 x <<< 16) ||| BitVec.ofInt 32 y)) else none) ∧
    (assemble c (.slevel x) =
      if -32768 ≤ x ∧ x ≤ 32767 then
        some (cmd (0x80000000#32 ||| (BitVec.ofInt 16 x).setWidth 32)) else none) ∧
    (assemble c (.plusdb x) =
      if -32768 ≤ x ∧ x ≤ 32767 then
        some (cmd (0x90000000#32 ||| (BitVec.ofInt 16 x).setWidth 32)) else none) ∧
    (assemble c (.cmdW x) =
      if 0 ≤ x ∧ x ≤ 0xFFFFFFFF then some (cmd (BitVec.ofInt 32 x)) else none) ∧
    (assemble c .resR = some { kind := .read, addr := c.tcuBase + 4#32, n := 4, v := 0#32 }) ∧
    (assemble c .stsR = some { kind := .read, addr := c.tcuBase + 8#32, n := 4, v := 0#32 }) ∧
    (assemble c (.stsW x) =
      if 0 ≤ x ∧ x ≤ 0xFFFFFFFF then
        some { kind := .write, addr := c.tcuBase + 8#32, n := 4, v := BitVec.ofInt 32 x } else none) ∧
    (assemble c (.dcsword .dcs x) = assemble c (.dcsw x)) ∧
    (assemble c (.dcsword .dcsNormal x) = assemble c (.dcswn x)) ∧
    (assemble c .clrsts = assemble c (.stsW 6))

/-! ### The ten operations -/

/-- 40_fec.md R60: GOLAY, with the running value as any sequence that follows the rule's iteration. -/
def Obligations.GolayRule : Prop :=
  (∀ (w : Nat → BitVec 24) (d : BitVec 12) (s : State), w 0 = d.setWidth 24 →
    (∀ k, k < 12 → w (k + 1) =
      if (w k <<< 1).getLsbD 12 = true then (w k <<< 1) ^^^ 0x08EA#24 else w k <<< 1) →
    exec (.golay d) s = .next (afterResult s (d.setWidth 32 ||| ((w 12 &&& 0x0FFE#24).setWidth 32 <<< 11)))) ∧
  (∀ (v : Word) (s : State), v.extractLsb' 28 4 = 0x1#4 →
    (v.extractLsb' 12 16 = 0#16 → command v s = exec (.golay (v.extractLsb' 0 12)) s) ∧
    (v.extractLsb' 12 16 ≠ 0#16 → command v s = .next (afterIllegalCommand s)))

/-- 40_fec.md R63: DCSCODE. -/
def Obligations.DcscodeRule : Prop :=
  (∀ (i : BitVec 8) (s : State) (h : i.toNat < 104),
    exec (.dcscode i) s = .next (afterResult s ((s.cfg.dcsTable[i.toNat]'h).setWidth 32))) ∧
  (∀ (i : BitVec 8) (s : State), 104 ≤ i.toNat → exec (.dcscode i) s = .next (afterIndexError s)) ∧
  (∀ (v : Word) (s : State), v.extractLsb' 28 4 = 0x2#4 →
    (v.extractLsb' 8 20 = 0#20 → command v s = exec (.dcscode (v.extractLsb' 0 8)) s) ∧
    (v.extractLsb' 8 20 ≠ 0#20 → command v s = .next (afterIllegalCommand s)))

/-- 40_fec.md R64: DCSW leaves the Golay code word of the table entry with the framing bit 0x800. That `golayEncode`
is the rule's encoder is `GolayRule`'s, through `exec (.golay _)`. -/
def Obligations.DcswRule : Prop :=
  (∀ (i : BitVec 8) (s : State) (h : i.toNat < 104),
    exec (.dcsw i) s = .next (afterResult s
      ((golayEncode ((s.cfg.dcsTable[i.toNat]'h).setWidth 12 ||| 0x800#12)).setWidth 32)) ∧
    exec (.dcsw i) s = exec (.golay ((s.cfg.dcsTable[i.toNat]'h).setWidth 12 ||| 0x800#12)) s) ∧
  (∀ (i : BitVec 8) (s : State), 104 ≤ i.toNat → exec (.dcsw i) s = .next (afterIndexError s)) ∧
  (∀ (v : Word) (s : State), v.extractLsb' 28 4 = 0x3#4 → v.extractLsb' 8 1 = 0#1 →
    (v.extractLsb' 9 19 = 0#19 → command v s = exec (.dcsw (v.extractLsb' 0 8)) s) ∧
    (v.extractLsb' 9 19 ≠ 0#19 → command v s = .next (afterIllegalCommand s)))

/-- 40_fec.md R65: DCSWN leaves the same code word with bits 22:0 inverted. -/
def Obligations.DcswnRule : Prop :=
  (∀ (i : BitVec 8) (s : State) (h : i.toNat < 104),
    exec (.dcswn i) s = .next (afterResult s
      ((golayEncode ((s.cfg.dcsTable[i.toNat]'h).setWidth 12 ||| 0x800#12)).setWidth 32 ^^^ 0x007FFFFF#32))) ∧
  (∀ (i : BitVec 8) (s : State), 104 ≤ i.toNat → exec (.dcswn i) s = .next (afterIndexError s)) ∧
  (∀ (v : Word) (s : State), v.extractLsb' 28 4 = 0x3#4 → v.extractLsb' 8 1 = 1#1 →
    (v.extractLsb' 9 19 = 0#19 → command v s = exec (.dcswn (v.extractLsb' 0 8)) s) ∧
    (v.extractLsb' 9 19 ≠ 0#19 → command v s = .next (afterIllegalCommand s)))

/-- 41_tone.md R68: CTFREQ. -/
def Obligations.CtfreqRule : Prop :=
  (∀ (i : BitVec 8) (s : State) (h : i.toNat < 50),
    exec (.ctfreq i) s = .next (afterResult s ((s.cfg.ctcssTable[i.toNat]'h).setWidth 32))) ∧
  (∀ (i : BitVec 8) (s : State), 50 ≤ i.toNat → exec (.ctfreq i) s = .next (afterIndexError s)) ∧
  (∀ (v : Word) (s : State), v.extractLsb' 28 4 = 0x4#4 →
    (v.extractLsb' 8 20 = 0#20 → command v s = exec (.ctfreq (v.extractLsb' 0 8)) s) ∧
    (v.extractLsb' 8 20 ≠ 0#20 → command v s = .next (afterIllegalCommand s)))

/-- 41_tone.md R69: CTCW is `t * 2065 / 1000`, truncating, modulo 2^16. -/
def Obligations.CtcwRule : Prop :=
  (∀ (t : BitVec 16) (s : State),
    exec (.ctcw t) s = .next (afterResult s (BitVec.ofNat 32 (t.toNat * 2065 / 1000 % 2 ^ 16)))) ∧
  (∀ (v : Word) (s : State), v.extractLsb' 28 4 = 0x5#4 →
    (v.extractLsb' 16 12 = 0#12 → command v s = exec (.ctcw (v.extractLsb' 0 16)) s) ∧
    (v.extractLsb' 16 12 ≠ 0#12 → command v s = .next (afterIllegalCommand s)))

/-- 41_tone.md R70: TGSCALE is `(f * 1353245 + 65536) >> 17`, product and sum modulo 2^32. -/
def Obligations.TgscaleRule : Prop :=
  (∀ (f : BitVec 16) (s : State),
    exec (.tgscale f) s = .next (afterResult s (BitVec.ofNat 32
      ((f.toNat * 1353245 % 2 ^ 32 + 65536) % 2 ^ 32 / 2 ^ 17 % 2 ^ 16)))) ∧
  (∀ (v : Word) (s : State), v.extractLsb' 28 4 = 0x6#4 →
    (v.extractLsb' 16 12 = 0#12 → command v s = exec (.tgscale (v.extractLsb' 0 16)) s) ∧
    (v.extractLsb' 16 12 ≠ 0#12 → command v s = .next (afterIllegalCommand s)))

/-- 42_rssi.md R74: RSSIDBM is RSSI_BASE(r) + DBM_CORR[b], wrapped in i16 and sign-extended. -/
def Obligations.RssidbmRule : Prop :=
  (∀ (b : BitVec 8) (r : BitVec 16) (s : State) (h : b.toNat < s.cfg.nBands),
    exec (.rssidbm b r) s = .next (afterResult s ((BitVec.ofInt 16
      ((s.cfg.rssiBaseAt r).toInt + (s.cfg.dbmCorr[b.toNat]'h).toInt)).signExtend 32))) ∧
  (∀ (b : BitVec 8) (r : BitVec 16) (s : State), s.cfg.nBands ≤ b.toNat →
    exec (.rssidbm b r) s = .next (afterIndexError s)) ∧
  (∀ (v : Word) (s : State), v.extractLsb' 28 4 = 0x7#4 →
    (v.extractLsb' 24 4 = 0#4 → command v s = exec (.rssidbm (v.extractLsb' 16 8) (v.extractLsb' 0 16)) s) ∧
    (v.extractLsb' 24 4 ≠ 0#4 → command v s = .next (afterIllegalCommand s)))

/-- 42_rssi.md R75: SLEVEL is 10 from -67 dBm up, else the least `n` in 0..9 with `d ≤ -121 + 6n`. -/
def Obligations.SlevelRule : Prop :=
  (∀ (d : BitVec 16) (s : State), ∃ n : Nat,
    exec (.slevel d) s = .next (afterResult s (BitVec.ofNat 32 n)) ∧
    (-67 ≤ d.toInt → n = 10) ∧
    (d.toInt < -67 → n ≤ 9 ∧ d.toInt ≤ -121 + 6 * (n : Int) ∧ ∀ k : Nat, k < n → -121 + 6 * (k : Int) < d.toInt)) ∧
  (∀ (v : Word) (s : State), v.extractLsb' 28 4 = 0x8#4 →
    (v.extractLsb' 16 12 = 0#12 → command v s = exec (.slevel (v.extractLsb' 0 16)) s) ∧
    (v.extractLsb' 16 12 ≠ 0#12 → command v s = .next (afterIllegalCommand s)))

/-- 42_rssi.md R76: PLUSDB is `d + 67`, wrapped in i16, from -67 dBm up, else 0. -/
def Obligations.PlusdbRule : Prop :=
  (∀ (d : BitVec 16) (s : State),
    exec (.plusdb d) s = .next (afterResult s
      (if -67 ≤ d.toInt then (BitVec.ofInt 16 (d.toInt + 67)).signExtend 32 else 0#32))) ∧
  (∀ (v : Word) (s : State), v.extractLsb' 28 4 = 0x9#4 →
    (v.extractLsb' 16 12 = 0#12 → command v s = exec (.plusdb (v.extractLsb' 0 16)) s) ∧
    (v.extractLsb' 16 12 ≠ 0#12 → command v s = .next (afterIllegalCommand s)))

/-! ### The command cycle and its errors -/

/-- 60_exceptions.md R81: a legal command ends in IndexError exactly when its index is out of range; otherwise it
completes with a result, and in both cases nothing else of the machine changes (30_encoding.md R44). -/
def Obligations.IndexErrorExactlyOutOfRange : Prop :=
  ∀ (i : Instr) (s : State),
    (indexOutOfRange s.cfg i → exec i s = .next (afterIndexError s)) ∧
    (¬ indexOutOfRange s.cfg i → ∃ r, isPlaced r ∧ exec i s = .next (afterResult s r))

/-- 60_exceptions.md R80 and R86: IllegalCommand is entered exactly for a word that is not legal, with the stated
state change; a legal word leaves ILLOP alone. -/
def Obligations.IllegalCommandExactlyIllegalWords : Prop :=
  ∀ (v : Word) (s : State),
    (legal v = false → command v s = .next (afterIllegalCommand s)) ∧
    (legal v = true → ∃ i t, decode v = .ok i ∧ command v s = exec i s ∧ exec i s = .next t ∧
      t.tcu.illop = s.tcu.illop)

/-- 30_encoding.md R44: what a command does reads no TCU state; it depends on the word and the configuration only. -/
def Obligations.CommandsReadNoTcuState : Prop :=
  ∀ (v : Word) (s t s' t' : State), s.cfg = t.cfg → command v s = .next s' → command v t = .next t' →
    s'.tcu.valid = t'.tcu.valid ∧ (s'.tcu.valid = true → s'.tcu.res = t'.tcu.res)

/-- The frame of every legal command: RES, VALID and (only on IndexError) IDXERR are all it may change
(30_encoding.md R44, 60_exceptions.md R85). -/
def Obligations.CommandFrame : Prop :=
  ∀ (i : Instr) (s t : State), exec i s = .next t →
    t.cfg = s.cfg ∧ t.owner = s.owner ∧ t.pending = s.pending ∧ t.responses = s.responses ∧
    t.tcu.illop = s.tcu.illop ∧ (s.tcu.idxerr = true → t.tcu.idxerr = true) ∧
    (t.tcu.valid = true → t.tcu.idxerr = s.tcu.idxerr) ∧
    (t.tcu.valid = false → t.tcu.res = s.tcu.res ∧ t.tcu.idxerr = true)

/-! ### The bus (20_memory.md) -/

/-- A CMD write whose word decodes runs exactly that instruction, after the write was taken and answered; one whose
word does not decode enters IllegalCommand (20_memory.md R34, 30_encoding.md R44). The answer before the effect is the
model's order inside one indivisible step (log 4). -/
def Obligations.StepRunsTheDecodedInstruction : Prop :=
  ∀ (s : State) (m : Nat) (v : Word) (rest : List BusEvent),
    s.pending = .access m (write32 0x0#4 v) :: rest → mayAccess s m →
    (∀ i, decode v = .ok i → step s = exec i (answered s m rest (.ok 0#32))) ∧
    (∀ e, decode v = .error e → step s = .next (afterIllegalCommand (answered s m rest (.ok 0#32))))

/-- The next step after `withFetchWord` runs the word of a row as the table numbers it (10_state.md R14, 30_encoding.md
R43). Placing the word as a pending CMD write is the model's form of loading a program (log 4, 8). -/
def Obligations.FetchWordRunsNext : Prop :=
  ∀ (s : State) (nbits w : Nat) (i : Instr), decodeTableWord nbits w = some i →
    ∃ m, mayAccess s m ∧ step (s.withFetchWord nbits w) = exec i (answered s m s.pending (.ok 0#32))

/-- 20_memory.md R32 and R33, 60_exceptions.md R82: exactly the accesses that are not 32-bit, misaligned, or at offset
0xC get a bus error, and it changes no TCU state. -/
def Obligations.BusErrorExactlyBadAccesses : Prop :=
  ∀ (s : State) (m : Nat) (a : Access) (rest : List BusEvent),
    s.pending = .access m a :: rest → mayAccess s m →
    (badAccess a → step s = .next (answered s m rest .busError)) ∧
    (¬ badAccess a → ∃ t data, step s = .next t ∧ t.responses = .ok data :: s.responses)

/-- Reads of CMD, RES and STS answer 0, RES and the flags, and change no TCU state (10_state.md R16, R17; 20_memory.md
R34). The word a read carries is ignored. -/
def Obligations.ReadsAnswerTheRegisters : Prop :=
  ∀ (s : State) (m : Nat) (v : Word) (rest : List BusEvent), mayAccess s m →
    (s.pending = .access m { kind := .read, off := 0x0#4, n := 4, v := v } :: rest →
      step s = .next (answered s m rest (.ok 0#32))) ∧
    (s.pending = .access m { kind := .read, off := 0x4#4, n := 4, v := v } :: rest →
      step s = .next (answered s m rest (.ok s.tcu.res))) ∧
    (s.pending = .access m { kind := .read, off := 0x8#4, n := 4, v := v } :: rest →
      ∃ x : Word, step s = .next (answered s m rest (.ok x)) ∧
        x.getLsbD 0 = s.tcu.valid ∧ x.getLsbD 1 = s.tcu.idxerr ∧ x.getLsbD 2 = s.tcu.illop ∧
        ∀ k, 3 ≤ k → x.getLsbD k = false)

/-- A write to RES is ignored (10_state.md R17). A write to STS clears IDXERR where bit 1 is 1 and ILLOP where bit 2
is 1, ignores the other bits, and leaves VALID and RES alone (10_state.md R22). -/
def Obligations.WritesToResAndSts : Prop :=
  ∀ (s : State) (m : Nat) (v : Word) (rest : List BusEvent), mayAccess s m →
    (s.pending = .access m (write32 0x4#4 v) :: rest → step s = .next (answered s m rest (.ok 0#32))) ∧
    (s.pending = .access m (write32 0x8#4 v) :: rest →
      step s = .next { answered s m rest (.ok 0#32) with
        tcu := { s.tcu with
          idxerr := if v.getLsbD 1 = true then false else s.tcu.idxerr,
          illop := if v.getLsbD 2 = true then false else s.tcu.illop } })

/-- 60_exceptions.md R88: one access has at most one error outcome, in the order bus error, IllegalCommand,
IndexError. -/
def Obligations.ErrorChecksInOrder : Prop :=
  ∀ (s t : State) (m : Nat) (a : Access) (rest : List BusEvent),
    s.pending = .access m a :: rest → step s = .next t →
    (badAccess a → t.tcu = s.tcu ∧ t.responses = .busError :: s.responses) ∧
    (∀ v, a = write32 0x0#4 v → t.responses = .ok 0#32 :: s.responses ∧
      (legal v = false → t.tcu.illop = true ∧ t.tcu.idxerr = s.tcu.idxerr) ∧
      (legal v = true → t.tcu.illop = s.tcu.illop)) ∧
    (¬ badAccess a → (∀ v, a ≠ write32 0x0#4 v) →
      (t.tcu.illop = true → s.tcu.illop = true) ∧ (t.tcu.idxerr = true → s.tcu.idxerr = true))

/-- 60_exceptions.md R89: errors are precise. An access that raises an error changes exactly the TCU state its entry rule
names (R85, R86, R87), and no access that ends in an error, seen in a bus error response or in VALID 0, writes RES. -/
def Obligations.NoPartialResult : Prop :=
  ∀ (s t : State) (m : Nat) (a : Access) (rest : List BusEvent),
    s.pending = .access m a :: rest → step s = .next t →
    (badAccess a → t.tcu = s.tcu ∧ t.cfg = s.cfg) ∧
    (∀ v, a = write32 0x0#4 v → legal v = false →
      t.tcu = { s.tcu with illop := true, valid := false } ∧ t.cfg = s.cfg) ∧
    (∀ v i, a = write32 0x0#4 v → decode v = .ok i → indexOutOfRange s.cfg i →
      t.tcu = { s.tcu with idxerr := true, valid := false } ∧ t.cfg = s.cfg) ∧
    (t.responses = .busError :: s.responses → t.tcu = s.tcu) ∧
    (t.tcu.valid = false → t.tcu.res = s.tcu.res)

/-- 20_memory.md R39: an access repeated at once leaves the same TCU state and gets the same response. -/
def Obligations.AccessesAreIdempotent : Prop :=
  ∀ (s t u : State) (m : Nat) (a : Access) (rest : List BusEvent),
    s.pending = .access m a :: .access m a :: rest → step s = .next t → step t = .next u →
    u.tcu = t.tcu ∧ ∃ r, t.responses = r :: s.responses ∧ u.responses = r :: r :: s.responses

/-- 20_memory.md R37: a read of RES or STS straight after a CMD write sees that command's effect: its result and VALID
1, or RES as before with VALID 0 and IDXERR or ILLOP 1. The two accesses are two steps over the pending events (log 4),
and a read of RES while VALID is 0 answers its value (log 15). -/
def Obligations.ReadSeesThePrecedingCommand : Prop :=
  ∀ (s : State) (m : Nat) (v : Word), mayAccess s m →
    (∀ i, decode v = .ok i → ¬ indexOutOfRange s.cfg i →
      ∃ r x, exec i s = .next (afterResult s r) ∧ readAfterCommand s m v 0x4#4 r ∧
        stsShows x true s.tcu.idxerr s.tcu.illop ∧ readAfterCommand s m v 0x8#4 x) ∧
    (∀ i, decode v = .ok i → indexOutOfRange s.cfg i →
      ∃ x, readAfterCommand s m v 0x4#4 s.tcu.res ∧
        stsShows x false true s.tcu.illop ∧ readAfterCommand s m v 0x8#4 x) ∧
    (legal v = false →
      ∃ x, readAfterCommand s m v 0x4#4 s.tcu.res ∧
        stsShows x false s.tcu.idxerr true ∧ readAfterCommand s m v 0x8#4 x)

/-- 70_reset_and_hazards.md R101: a result that a failing command follows stays in RES with VALID 0; a result that
another result follows is gone. -/
def Obligations.StaleResultShowsInValid : Prop :=
  ∀ (s : State) (m : Nat) (v w : Word) (i : Instr) (rest : List BusEvent), mayAccess s m →
    s.pending = .access m (write32 0x0#4 v) :: .access m (write32 0x0#4 w) :: rest →
    decode v = .ok i → ¬ indexOutOfRange s.cfg i →
    ∃ r t, exec i s = .next (afterResult s r) ∧ Sys2Proof.core.run 2 s = .next t ∧
      (legal w = false → t.tcu.res = r ∧ t.tcu.valid = false) ∧
      (∀ j, decode w = .ok j → indexOutOfRange s.cfg j → t.tcu.res = r ∧ t.tcu.valid = false) ∧
      (∀ j, decode w = .ok j → ¬ indexOutOfRange s.cfg j →
        exec j s = .next (afterResult s t.tcu.res) ∧ t.tcu.valid = true)

/-- 20_memory.md R30 and R31: exactly the accesses to TCU_BASE .. TCU_BASE + 0xF are routed to the TCU, at the offset
in address bits 3:0, and TCU_BASE is a multiple of 16. -/
def Obligations.RoutingIsExactlyTheWindow : Prop :=
  ∀ (c : Config) (q : BusRequest),
    c.tcuBase.toNat % 16 = 0 ∧
    ((route c q).isSome = true ↔ c.tcuBase.toNat ≤ q.addr.toNat ∧ q.addr.toNat ≤ c.tcuBase.toNat + 15) ∧
    (∀ a, route c q = some a → a.kind = q.kind ∧ a.n = q.n ∧ a.v = q.v ∧
      a.off = q.addr.extractLsb' 0 4 ∧ a.off.toNat = q.addr.toNat - c.tcuBase.toNat)

/-- An instruction written to TCU_BASE + 0x0 by the one master of an idle machine runs in the next step
(00_scope.md R9, 20_memory.md R31, R34; 30_encoding.md R44). The queue the request joins and the answer before the
effect (log 4), and routing as part of issuing (log 7), are the model's choice. -/
def Obligations.IssuedCommandRuns : Prop :=
  ∀ (s : State) (m : Nat) (i : Instr), s.pending = [] → mayAccess s m →
    step (s.issue m (memWrite s.cfg.tcuBase 4 (encode i))) = exec i (answered s m [] (.ok 0#32))

/-! ### Whole-machine rules -/

/-- 10_state.md R20: what sets IDXERR, and that a host write of STS with bit 1 = 1, or reset, clears it and
nothing else does. -/
def Obligations.IdxerrIsSticky : Prop :=
  ∀ (s t : State), step s = .next t →
    (s.tcu.idxerr = true → t.tcu.idxerr = false → ∃ rest, s.pending = .reset :: rest ∨
      ∃ m v, s.pending = .access m (write32 0x8#4 v) :: rest ∧ v.getLsbD 1 = true) ∧
    (s.tcu.idxerr = false → t.tcu.idxerr = true → ∃ m v i rest,
      s.pending = .access m (write32 0x0#4 v) :: rest ∧ decode v = .ok i ∧ indexOutOfRange s.cfg i) ∧
    (∀ m v i rest, s.pending = .access m (write32 0x0#4 v) :: rest → decode v = .ok i →
      indexOutOfRange s.cfg i → t.tcu.idxerr = true) ∧
    (∀ rest, s.pending = .reset :: rest → t.tcu.idxerr = false) ∧
    (∀ m v rest, s.pending = .access m (write32 0x8#4 v) :: rest → v.getLsbD 1 = true → t.tcu.idxerr = false)

/-- 10_state.md R21: what sets ILLOP, and that a host write of STS with bit 2 = 1, or reset, clears it and
nothing else does. -/
def Obligations.IllopIsSticky : Prop :=
  ∀ (s t : State), step s = .next t →
    (s.tcu.illop = true → t.tcu.illop = false → ∃ rest, s.pending = .reset :: rest ∨
      ∃ m v, s.pending = .access m (write32 0x8#4 v) :: rest ∧ v.getLsbD 2 = true) ∧
    (s.tcu.illop = false → t.tcu.illop = true → ∃ m v rest,
      s.pending = .access m (write32 0x0#4 v) :: rest ∧ legal v = false) ∧
    (∀ m v rest, s.pending = .access m (write32 0x0#4 v) :: rest → legal v = false → t.tcu.illop = true) ∧
    (∀ rest, s.pending = .reset :: rest → t.tcu.illop = false) ∧
    (∀ m v rest, s.pending = .access m (write32 0x8#4 v) :: rest → v.getLsbD 2 = true → t.tcu.illop = false)

/-- Only a command or reset changes VALID or RES; no other host access does (10_state.md R17, R19). -/
def Obligations.OnlyCommandsAndResetTouchTheResult : Prop :=
  ∀ (s t : State), step s = .next t → (∀ e rest, s.pending = e :: rest → e ≠ .reset ∧ ¬ isCommand e) →
    t.tcu.valid = s.tcu.valid ∧ t.tcu.res = s.tcu.res

/-- 10_state.md R19: after a command write and any further accesses that are no command and no reset, VALID = 1 means
RES holds that command's result. -/
def Obligations.ValidMeansMostRecentResult : Prop :=
  ∀ (s t : State) (m : Nat) (v : Word) (later : List BusEvent),
    s.pending = .access m (write32 0x0#4 v) :: later → (∀ e ∈ later, e ≠ .reset ∧ ¬ isCommand e) →
    Sys2Proof.core.run (later.length + 1) s = .next t →
    (t.tcu.valid = true ↔ ∃ i, decode v = .ok i ∧ ¬ indexOutOfRange s.cfg i) ∧
    (t.tcu.valid = true → ∃ i, decode v = .ok i ∧ exec i s = .next (afterResult s t.tcu.res)) ∧
    (t.tcu.valid = false → t.tcu.res = s.tcu.res)

/-- Every step keeps what RES holds (10_state.md R17, 30_encoding.md R57), from every state that has it. What VALID says
of RES is `ValidMeansMostRecentResult`'s. -/
def Obligations.StepsKeepResMeaningful : Prop :=
  ∀ s t : State, resMeaningful s → step s = .next t → resMeaningful t

/-- RES of the reset state is such a value. -/
def Obligations.ResetResMeaningful : Prop := resMeaningful State.reset

/-- 10_state.md R24: no number of steps, resets among them, changes a table or any other part of the configuration
(20_memory.md R41, 70_reset_and_hazards.md R97). -/
def Obligations.ConfigurationNeverChanges : Prop :=
  ∀ (k : Nat) (s t : State), Sys2Proof.core.run k s = .next t → t.cfg = s.cfg

/-- 70_reset_and_hazards.md R95 and 10_state.md R27: reset is a step of its own that puts RES and the flags to 0 and
changes nothing else of the TCU; and the machine starts in those values. That it leaves the responses and the owner as
they are is the model's choice (log 4, 5). -/
def Obligations.ResetPutsTheResetValues : Prop :=
  (∀ (s : State) (rest : List BusEvent), s.pending = .reset :: rest →
    step s = .next { s with
      pending := rest, tcu := { res := 0x00000000#32, valid := false, idxerr := false, illop := false } }) ∧
  State.reset.tcu = { res := 0x00000000#32, valid := false, idxerr := false, illop := false }

/-- With nothing pending the machine waits (70_reset_and_hazards.md R96; a wait as a step that changes nothing is the
model's choice, log 4). -/
def Obligations.WaitsForAccesses : Prop := ∀ s : State, s.pending = [] → step s = .next s

/-- The only two ways the machine stops: an access of a second bus master (20_memory.md R38) and one that overlaps
reset (70_reset_and_hazards.md R95). The first master to make an access is the one master: log 5. -/
def Obligations.OnlyTwoRefusals : Prop :=
  ∀ (s : State) (r : Refusal), step s = .refused r ↔
    (r = .secondBusMaster ∧ ∃ m m' a rest, s.pending = .access m a :: rest ∧ s.owner = some m' ∧ m' ≠ m) ∨
    (r = .accessOverlapsReset ∧ ∃ m a rest, s.pending = .accessOverlappingReset m a :: rest)

/-- 60_exceptions.md R78: a program of one master never stops. Every event is taken, every access answered, whatever
errors came before. Steps beyond the pending events wait (log 4), and the one master is the first whose access is taken
(log 5): both are the model's choice. -/
def Obligations.SoleMasterNeverStops : Prop :=
  ∀ (m k : Nat) (s : State), mayAccess s m → soleMaster m s.pending →
    ∃ t, Sys2Proof.core.run k s = .next t ∧ t.pending = s.pending.drop k ∧
      t.responses.length = s.responses.length + ((s.pending.take k).filter isAccess).length

/-! ### Properties of the arithmetic -/

/-- 40_fec.md R62 item 2: GOLAY is linear. -/
def Obligations.GolayIsLinear : Prop :=
  ∀ (a b : BitVec 12) (s : State), ∃ x y : Word,
    exec (.golay a) s = .next (afterResult s x) ∧ exec (.golay b) s = .next (afterResult s y) ∧
    exec (.golay (a ^^^ b)) s = .next (afterResult s (x ^^^ y))

/-- 40_fec.md R62 items 1 and 3: the code word holds the data in bits 11:0, and in bits 22:12 the remainder of
d(x)·x^11 by g(x) = 0xC75 (the difference is a multiple of g, and the remainder has fewer than 12 bits). -/
def Obligations.GolayParityIsTheRemainder : Prop :=
  ∀ (d : BitVec 12) (s : State), ∃ (r : Word) (q : BitVec 12),
    exec (.golay d) s = .next (afterResult s r) ∧ r.extractLsb' 0 12 = d ∧ r.extractLsb' 23 9 = 0#9 ∧
    (d.setWidth 23 <<< 11) ^^^ (r.extractLsb' 12 11).setWidth 23 = generatorTimes q

/-- 40_fec.md R62 item 4: the least weight of a nonzero code word is 7. -/
def Obligations.GolayLeastWeightIsSeven : Prop :=
  (∀ (d : BitVec 12) (s : State), d ≠ 0#12 → ∃ r, exec (.golay d) s = .next (afterResult s r) ∧ 7 ≤ weight r) ∧
  (∀ s : State, ∃ (d : BitVec 12) (r : Word), d ≠ 0#12 ∧ exec (.golay d) s = .next (afterResult s r) ∧ weight r = 7)

/-- 40_fec.md R62 item 4: the code corrects 3 errors. Two code words that up to three bit errors each make equal are
code words of the same data. -/
def Obligations.GolayCorrectsThreeErrors : Prop :=
  ∀ (d d' : BitVec 12) (s : State) (c c' e e' : Word),
    exec (.golay d) s = .next (afterResult s c) → exec (.golay d') s = .next (afterResult s c') →
    weight e ≤ 3 → weight e' ≤ 3 → c ^^^ e = c' ^^^ e' → d = d'

/-- 40_fec.md R61: a running value of any width from 13 bits up gives the same parity bits. -/
def Obligations.GolayWidthDoesNotMatter : Prop :=
  ∀ (n : Nat) (d : BitVec 12), 13 ≤ n → golayParityBits n d = golayParityBits 24 d

/-- 40_fec.md R66: DCSW and DCSWN of one index are complements in 23 bits, for every table. -/
def Obligations.DcsPairIsComplementary : Prop :=
  ∀ (i : BitVec 8) (s : State), i.toNat < 104 → ∃ x y : Word,
    exec (.dcsw i) s = .next (afterResult s x) ∧ exec (.dcswn i) s = .next (afterResult s y) ∧
    x ≠ y ∧ x ^^^ y = 0x007FFFFF#32

/-- 41_tone.md R71: where the scalings are exact, and where they wrap. -/
def Obligations.ScalingsAreExactInRange : Prop :=
  (∀ (t : BitVec 16) (s : State), ∃ r : Word, exec (.ctcw t) s = .next (afterResult s r) ∧
    (t.toNat ≤ 31736 → r.toNat = t.toNat * 2065 / 1000) ∧
    (31736 < t.toNat → r.toNat = t.toNat * 2065 / 1000 % 65536)) ∧
  (∀ (f : BitVec 16) (s : State), ∃ r : Word, exec (.tgscale f) s = .next (afterResult s r) ∧
    (f.toNat ≤ 3173 → r.toNat = (f.toNat * 1353245 + 65536) / 131072) ∧
    (3174 ≤ f.toNat → r.toNat ≠ (f.toNat * 1353245 + 65536) / 131072)) ∧
  (∀ s : State, exec (.ctcw tailTone) s = .next (afterResult s 1135#32))

/-- 42_rssi.md R77: SLEVEL is monotone, at most 10, and 10 exactly from -67 dBm up; PLUSDB is non-negative up to
32700. -/
def Obligations.SMeterProperties : Prop :=
  (∀ (d d' : BitVec 16) (s : State), ∃ r r' : Word,
    exec (.slevel d) s = .next (afterResult s r) ∧ exec (.slevel d') s = .next (afterResult s r') ∧
    (d.toInt ≤ d'.toInt → r.toNat ≤ r'.toNat) ∧ r.toNat ≤ 10 ∧ (r.toNat = 10 ↔ -67 ≤ d.toInt)) ∧
  (∀ (d : BitVec 16) (s : State), ∃ p : Word, exec (.plusdb d) s = .next (afterResult s p) ∧
    (d.toInt ≤ 32700 → 0 ≤ p.toInt))
end

