-- ==== Sys2Proof/Laws/Config.lean ====
section
/-! SUPPORT. Reading back a concrete RSSI_BASE, and the shape of the base address. -/

namespace Sys2Proof

/-- The table of `f` reads as `f`. -/
theorem Config.rssiTableOf_get (f : BitVec 16 → BitVec 16) (k : Nat) (h : k < 2 ^ 16) :
    (Config.rssiTableOf f)[k] = f (BitVec.ofNat 16 k) := by
  simp [Config.rssiTableOf]

/-- A configuration built from `f` has RSSI_BASE = `f`. -/
theorem Config.rssiBaseAt_of (c : Config) (f : BitVec 16 → BitVec 16) (h : c.rssiBase = Config.rssiTableOf f)
    (r : BitVec 16) : c.rssiBaseAt r = f r := by
  have hget := Config.rssiTableOf_get f r.toNat r.isLt
  simpa [Config.rssiBaseAt, h] using hget

/-- TCU_BASE is 16 times the window number, so a multiple of 16. -/
theorem Config.tcuBase_toNat (c : Config) : c.tcuBase.toNat = 16 * c.window.toNat := by
  have h : (c.window ++ 0#4 : BitVec (28 + 4)).toNat = c.window.toNat <<< 4 ||| 0 := BitVec.toNat_append _ _
  rw [Nat.or_zero, Nat.shiftLeft_eq, Nat.mul_comm] at h
  exact h

end Sys2Proof
end

