-- ==== Sys2Proof/Laws/Decode.lean ====
section
/-! SUPPORT. The decoder's result from the opcode map, and byte images. -/

namespace Sys2Proof

/-- The decoder accepts exactly when some row selects the word, and then builds that row's instruction. -/
theorem decode_ok_iff (v : Word) (i : Instr) :
    decode v = .ok i ↔ ∃ r, opcodeTable.find? (fun r => r.selects v) = some r ∧ r.build v = i := by
  unfold decode
  cases opcodeTable.find? (fun r => r.selects v) with
  | some r => simp
  | none => by_cases h : opReserved (fieldOp v) = true <;> simp [h]

/-- A word that no row selects is rejected. -/
theorem decode_error_of_not_legal {v : Word} (h : legal v = false) : ∃ e, decode v = .error e := by
  have hnone : opcodeTable.find? (fun r => r.selects v) = none := by
    rw [List.find?_eq_none]
    intro r hr hs
    have : legal v = true := List.any_eq_true.mpr ⟨r, hr, hs⟩
    rw [h] at this
    exact Bool.false_ne_true this
  unfold decode
  rw [hnone]
  by_cases hop : opReserved (fieldOp v) = true
  · exact ⟨.reservedOpcode, by simp [hop]⟩
  · exact ⟨.reservedBits, by simp [hop]⟩

/-- A word that some row selects is accepted. -/
theorem decode_ok_of_legal {v : Word} (h : legal v = true) : ∃ i, decode v = .ok i := by
  have hsome : (opcodeTable.find? fun r => r.selects v).isSome = true := by
    rw [List.find?_isSome]
    exact List.any_eq_true.mp h
  obtain ⟨r, hr⟩ := Option.isSome_iff_exists.mp hsome
  exact ⟨r.build v, (decode_ok_iff v _).mpr ⟨r, hr, rfl⟩⟩

/-- Four bytes of a word's image give the word back. -/
theorem wordOfBytes_bytesOfWord (v : Word) :
    wordOfBytes (byteOf v 0) (byteOf v 1) (byteOf v 2) (byteOf v 3) = v := by
  apply BitVec.eq_of_getLsbD_eq
  intro k hk
  simp only [wordOfBytes, byteOf, BitVec.getLsbD_append, BitVec.getLsbD_extractLsb']
  by_cases h0 : k < 8
  · simp [h0]
  by_cases h1 : k < 16
  · simp only [h0, show k - 8 < 8 by omega]
    simp [show 8 + (k - 8) = k by omega]
  by_cases h2 : k < 24
  · simp only [h0, show ¬ k - 8 < 8 by omega, show k - 8 - 8 < 8 by omega]
    simp [show 16 + (k - 8 - 8) = k by omega]
  · simp only [h0, show ¬ k - 8 < 8 by omega, show ¬ k - 8 - 8 < 8 by omega, show k - 8 - 8 - 8 < 8 by omega]
    simp [show 24 + (k - 8 - 8 - 8) = k by omega]

/-- The table word's decoding is the word decoder's. -/
theorem decodeTableWord_eq (nbits w : Nat) (h : nbits ≤ 32) :
    decodeTableWord nbits w = (decode (tableWord nbits w)).toOption := by
  simp only [decodeTableWord, h, if_true, bytesOfWord, decodeBytes, wordOfBytes_bytesOfWord]
  cases decode (tableWord nbits w) <;> rfl

end Sys2Proof
end

