-- ==== Sys2Proof/Laws/PerInstr.lean ====
section
/-! SUPPORT. One family of statements per instruction: its word lies in its own row of the opcode map. -/

namespace Sys2Proof.Laws.OwnRow

/-- The mask of an instruction's row (30_encoding.md R51). -/
def mask : Instr → Word
  | .golay _ => 0xFFFFF000#32
  | .dcscode _ => 0xFFFFFF00#32
  | .dcsw _ => 0xFFFFFF00#32
  | .dcswn _ => 0xFFFFFF00#32
  | .ctfreq _ => 0xFFFFFF00#32
  | .ctcw _ => 0xFFFF0000#32
  | .tgscale _ => 0xFFFF0000#32
  | .rssidbm _ _ => 0xFF000000#32
  | .slevel _ => 0xFFFF0000#32
  | .plusdb _ => 0xFFFF0000#32

/-- The match value of an instruction's row (30_encoding.md R51). -/
def pattern : Instr → Word
  | .golay _ => 0x10000000#32
  | .dcscode _ => 0x20000000#32
  | .dcsw _ => 0x30000000#32
  | .dcswn _ => 0x30000100#32
  | .ctfreq _ => 0x40000000#32
  | .ctcw _ => 0x50000000#32
  | .tgscale _ => 0x60000000#32
  | .rssidbm _ _ => 0x70000000#32
  | .slevel _ => 0x80000000#32
  | .plusdb _ => 0x90000000#32

/-- The encoded word has the row's match value under the row's mask. -/
def Statement (i : Instr) : Prop := encode i &&& mask i = pattern i

/-- A field below the mask leaves the match value alone. -/
theorem masked_field {n : Nat} (d : BitVec n) (p m : Word) (hp : p &&& m = p)
    (hm : ∀ k, k < n → m.getLsbD k = false) : (p ||| d.setWidth 32) &&& m = p := by
  have hz : d.setWidth 32 &&& m = 0#32 := by
    apply BitVec.eq_of_getLsbD_eq
    intro k _
    by_cases hkn : k < n
    · simp [hm k hkn]
    · simp [BitVec.getLsbD_of_ge d k (Nat.not_lt.mp hkn)]
  have hdist : (p ||| d.setWidth 32) &&& m = (p &&& m) ||| (d.setWidth 32 &&& m) := by
    apply BitVec.eq_of_getLsbD_eq
    intro k _
    simp [Bool.and_or_distrib_right]
  rw [hdist, hp, hz, BitVec.or_zero]

theorem golay (d : BitVec 12) : Statement (.golay d) :=
  masked_field d 0x10000000#32 0xFFFFF000#32 (by decide) (by decide)

theorem dcscode (i : BitVec 8) : Statement (.dcscode i) :=
  masked_field i 0x20000000#32 0xFFFFFF00#32 (by decide) (by decide)

theorem dcsw (i : BitVec 8) : Statement (.dcsw i) :=
  masked_field i 0x30000000#32 0xFFFFFF00#32 (by decide) (by decide)

theorem dcswn (i : BitVec 8) : Statement (.dcswn i) :=
  masked_field i 0x30000100#32 0xFFFFFF00#32 (by decide) (by decide)

theorem ctfreq (i : BitVec 8) : Statement (.ctfreq i) :=
  masked_field i 0x40000000#32 0xFFFFFF00#32 (by decide) (by decide)

theorem ctcw (t : BitVec 16) : Statement (.ctcw t) :=
  masked_field t 0x50000000#32 0xFFFF0000#32 (by decide) (by decide)

theorem tgscale (f : BitVec 16) : Statement (.tgscale f) :=
  masked_field f 0x60000000#32 0xFFFF0000#32 (by decide) (by decide)

theorem slevel (d : BitVec 16) : Statement (.slevel d) :=
  masked_field d 0x80000000#32 0xFFFF0000#32 (by decide) (by decide)

theorem plusdb (d : BitVec 16) : Statement (.plusdb d) :=
  masked_field d 0x90000000#32 0xFFFF0000#32 (by decide) (by decide)

/-- RSSIDBM's two fields side by side are one field of 24 bits. -/
theorem band_and_value (b : BitVec 8) (r : BitVec 16) :
    (b.setWidth 32 <<< 16) ||| r.setWidth 32 = (b ++ r : BitVec (8 + 16)).setWidth 32 := by
  apply BitVec.eq_of_getLsbD_eq
  intro k hk
  simp only [BitVec.getLsbD_or, BitVec.getLsbD_shiftLeft, BitVec.getLsbD_setWidth, BitVec.getLsbD_append]
  by_cases h : k < 16
  · simp [h, hk]
  · simp [h, hk, BitVec.getLsbD_of_ge r k (Nat.not_lt.mp h)]
    intro _
    omega

theorem rssidbm (b : BitVec 8) (r : BitVec 16) : Statement (.rssidbm b r) := by
  have h := masked_field (b ++ r : BitVec (8 + 16)) 0x70000000#32 0xFF000000#32 (by decide) (by decide)
  rw [← band_and_value, ← BitVec.or_assoc] at h
  exact h

end Sys2Proof.Laws.OwnRow
end

