-- ==== Sys2Proof/Laws/State.lean ====
section
/-! SUPPORT. One lemma per field and update of the state, and what each shared operation on it does. -/

namespace Sys2Proof.Machine

section TcuUpdates
variable (t : TcuState) (v r : Word)

@[simp] theorem TcuState.setValid_res : t.setValid.res = t.res := rfl
@[simp] theorem TcuState.setValid_valid : t.setValid.valid = true := rfl
@[simp] theorem TcuState.setValid_idxerr : t.setValid.idxerr = t.idxerr := rfl
@[simp] theorem TcuState.setValid_illop : t.setValid.illop = t.illop := rfl

@[simp] theorem TcuState.indexErrorEntry_res : t.indexErrorEntry.res = t.res := rfl
@[simp] theorem TcuState.indexErrorEntry_valid : t.indexErrorEntry.valid = false := rfl
@[simp] theorem TcuState.indexErrorEntry_idxerr : t.indexErrorEntry.idxerr = true := rfl
@[simp] theorem TcuState.indexErrorEntry_illop : t.indexErrorEntry.illop = t.illop := rfl

@[simp] theorem TcuState.illegalCommandEntry_res : t.illegalCommandEntry.res = t.res := rfl
@[simp] theorem TcuState.illegalCommandEntry_valid : t.illegalCommandEntry.valid = false := rfl
@[simp] theorem TcuState.illegalCommandEntry_idxerr : t.illegalCommandEntry.idxerr = t.idxerr := rfl
@[simp] theorem TcuState.illegalCommandEntry_illop : t.illegalCommandEntry.illop = true := rfl

@[simp] theorem TcuState.stsWrite_res : (t.stsWrite v).res = t.res := rfl
@[simp] theorem TcuState.stsWrite_valid : (t.stsWrite v).valid = t.valid := rfl
@[simp] theorem TcuState.stsWrite_idxerr : (t.stsWrite v).idxerr = (t.idxerr && !v.getLsbD 1) := rfl
@[simp] theorem TcuState.stsWrite_illop : (t.stsWrite v).illop = (t.illop && !v.getLsbD 2) := rfl

@[simp] theorem TcuState.finish_value : t.finish (.value r) = { t with res := r, valid := true } := rfl
@[simp] theorem TcuState.finish_indexError : t.finish .indexError = t.indexErrorEntry := rfl

@[simp] theorem TcuState.reset_res : TcuState.reset.res = 0#32 := rfl
@[simp] theorem TcuState.reset_valid : TcuState.reset.valid = false := rfl
@[simp] theorem TcuState.reset_idxerr : TcuState.reset.idxerr = false := rfl
@[simp] theorem TcuState.reset_illop : TcuState.reset.illop = false := rfl

end TcuUpdates

section StateUpdates
variable (s : State) (t : TcuState) (rest : List BusEvent) (m : Nat) (r : BusResponse)

@[simp] theorem State.withTcu_cfg : (s.withTcu t).cfg = s.cfg := rfl
@[simp] theorem State.withTcu_tcu : (s.withTcu t).tcu = t := rfl
@[simp] theorem State.withTcu_owner : (s.withTcu t).owner = s.owner := rfl
@[simp] theorem State.withTcu_pending : (s.withTcu t).pending = s.pending := rfl
@[simp] theorem State.withTcu_responses : (s.withTcu t).responses = s.responses := rfl

@[simp] theorem State.take_cfg : (s.take rest).cfg = s.cfg := rfl
@[simp] theorem State.take_tcu : (s.take rest).tcu = s.tcu := rfl
@[simp] theorem State.take_owner : (s.take rest).owner = s.owner := rfl
@[simp] theorem State.take_pending : (s.take rest).pending = rest := rfl
@[simp] theorem State.take_responses : (s.take rest).responses = s.responses := rfl

@[simp] theorem State.own_cfg : (s.own m).cfg = s.cfg := rfl
@[simp] theorem State.own_tcu : (s.own m).tcu = s.tcu := rfl
@[simp] theorem State.own_owner : (s.own m).owner = some m := rfl
@[simp] theorem State.own_pending : (s.own m).pending = s.pending := rfl
@[simp] theorem State.own_responses : (s.own m).responses = s.responses := rfl

@[simp] theorem State.respond_cfg : (s.respond r).cfg = s.cfg := rfl
@[simp] theorem State.respond_tcu : (s.respond r).tcu = s.tcu := rfl
@[simp] theorem State.respond_owner : (s.respond r).owner = s.owner := rfl
@[simp] theorem State.respond_pending : (s.respond r).pending = s.pending := rfl
@[simp] theorem State.respond_responses : (s.respond r).responses = r :: s.responses := rfl

end StateUpdates

/-- A master is admitted exactly when no other one has been seen. -/
theorem State.ownedBy_iff (s : State) (m : Nat) : s.ownedBy m = true ↔ s.owner = none ∨ s.owner = some m := by
  cases h : s.owner <;> simp [State.ownedBy, h]

/-- Everything `State.finish` can do: a result in RES with VALID set, or the IndexError entry. -/
theorem State.finish_cases (s : State) (r : ExecResult) :
    (∃ w, r = .value w ∧ s.finish r = { s with tcu := { s.tcu with res := w, valid := true } }) ∨
      (r = .indexError ∧ s.finish r = { s with tcu := { s.tcu with idxerr := true, valid := false } }) := by
  cases r with
  | value w => exact .inl ⟨w, rfl, rfl⟩
  | indexError => exact .inr ⟨rfl, rfl⟩

/-- Where STS shows the flags, and that its other bits read as zero. -/
theorem TcuState.sts_getLsbD (t : TcuState) :
    t.sts.getLsbD 0 = t.valid ∧ t.sts.getLsbD 1 = t.idxerr ∧ t.sts.getLsbD 2 = t.illop ∧
      ∀ k, 3 ≤ k → t.sts.getLsbD k = false := by
  have low : ∀ c b a : Bool,
      ((BitVec.ofBool c ++ BitVec.ofBool b ++ BitVec.ofBool a).setWidth 32).getLsbD 0 = a ∧
      ((BitVec.ofBool c ++ BitVec.ofBool b ++ BitVec.ofBool a).setWidth 32).getLsbD 1 = b ∧
      ((BitVec.ofBool c ++ BitVec.ofBool b ++ BitVec.ofBool a).setWidth 32).getLsbD 2 = c := by decide
  obtain ⟨h0, h1, h2⟩ := low t.illop t.idxerr t.valid
  refine ⟨h0, h1, h2, fun k hk => ?_⟩
  rw [TcuState.sts, BitVec.getLsbD_setWidth, BitVec.getLsbD_of_ge _ k (by omega), Bool.and_false]

/-- `lookup` of a legal index reads that entry. -/
theorem lookup_of_lt {α : Type} {n : Nat} {table : Vector α n} {i : BitVec 8} {use : α → Word} (h : i.toNat < n) :
    lookup table i use = .value (use table[i.toNat]) := dif_pos h

/-- `lookup` of an index outside the table reads nothing. -/
theorem lookup_of_le {α : Type} {n : Nat} {table : Vector α n} {i : BitVec 8} {use : α → Word} (h : n ≤ i.toNat) :
    lookup table i use = .indexError := dif_neg (Nat.not_lt.mpr h)

end Sys2Proof.Machine
end

