-- ==== Sys2Proof/Laws/Step.lean ====
section
/-! SUPPORT. Everything a command, an access and a step can do, said once. -/

namespace Sys2Proof.Machine

/-- What a legal command computes, read off its meaning (30_encoding.md R44: a pure function of the word and the
configuration). -/
def executeOf (c : Config) : Instr → ExecResult
  | .golay d => executeGolay d
  | .dcscode i => executeDcscode c i
  | .dcsw i => executeDcsw c i
  | .dcswn i => executeDcswn c i
  | .ctfreq i => executeCtfreq c i
  | .ctcw t => executeCtcw t
  | .tgscale f => executeTgscale f
  | .rssidbm b r => executeRssidbm c b r
  | .slevel d => executeSlevel d
  | .plusdb d => executePlusdb d

/-- A legal command finishes with what it computes; nothing else happens. -/
theorem exec_eq (i : Instr) (s : State) : exec i s = .next (s.finish (executeOf s.cfg i)) := by
  cases i <;> rfl

/-- Everything a command write can do to the TCU. -/
inductive CommandEffect (t : TcuState) : TcuState → Prop
  | result (r : Word) : CommandEffect t { t with res := r, valid := true }
  | indexError : CommandEffect t { t with idxerr := true, valid := false }
  | illegal : CommandEffect t { t with illop := true, valid := false }

/-- A command write always completes, and touches nothing but the TCU state. -/
theorem command_next (v : Word) (s : State) :
    ∃ t, command v s = .next (s.withTcu t) ∧ CommandEffect s.tcu t := by
  unfold command
  cases h : decode v with
  | ok i =>
    refine ⟨s.tcu.finish (executeOf s.cfg i), exec_eq i s, ?_⟩
    cases executeOf s.cfg i with
    | value r => exact .result r
    | indexError => exact .indexError
  | error e => exact ⟨_, rfl, .illegal⟩

/-- An access is a bus error exactly in the cases of 20_memory.md R32 and R33. -/
theorem Access.isBusError_iff (a : Access) :
    a.isBusError = true ↔ a.n ≠ 4 ∨ a.off.toNat % 4 ≠ 0 ∨ a.off = 0xC#4 := by
  simp [Access.isBusError, reservedOff, or_assoc]

/-- The offsets that are no bus error are CMD, RES and STS. -/
theorem offset_cases (off : BitVec 4) (h4 : off.toNat % 4 = 0) (hC : off ≠ 0xC#4) :
    off = cmdOff ∨ off = resOff ∨ off = stsOff := by
  revert off
  decide

/-- The accesses that are no bus error. -/
inductive GoodAccess : Access → Prop
  | readReg (off : BitVec 4) (v : Word) (h : off = cmdOff ∨ off = resOff ∨ off = stsOff) :
      GoodAccess { kind := .read, off := off, n := 4, v := v }
  | cmd (v : Word) : GoodAccess (cmdWrite v)
  | resWrite (v : Word) : GoodAccess { kind := .write, off := resOff, n := 4, v := v }
  | stsWrite (v : Word) : GoodAccess { kind := .write, off := stsOff, n := 4, v := v }

/-- An access is a bus error or one of the good accesses. -/
theorem Access.good_of_not_busError {a : Access} (h : a.isBusError = false) : GoodAccess a := by
  obtain ⟨kind, off, n, v⟩ := a
  have hb : ¬ (n ≠ 4 ∨ off.toNat % 4 ≠ 0 ∨ off = 0xC#4) := by
    rw [← Access.isBusError_iff ⟨kind, off, n, v⟩, h]
    exact Bool.false_ne_true
  simp only [not_or, not_not] at hb
  obtain ⟨rfl, h4, hC⟩ := hb
  have hoff := offset_cases off h4 hC
  cases kind with
  | read => exact .readReg off v hoff
  | write =>
    rcases hoff with rfl | rfl | rfl
    · exact .cmd v
    · exact .resWrite v
    · exact .stsWrite v

section AccessRules
variable (s : State) (v : Word)

/-- A bus error changes nothing but the responses. -/
theorem access_busError {a : Access} (h : a.isBusError = true) : access a s = .next (s.respond .busError) := by
  simp [access, h]

/-- A read answers the register and changes nothing. -/
theorem access_read {off : BitVec 4} (h : off = cmdOff ∨ off = resOff ∨ off = stsOff) :
    access { kind := .read, off := off, n := 4, v := v } s = .next (s.respond (.ok (s.tcu.readRegister off))) := by
  have hb : ({ kind := .read, off := off, n := 4, v := v } : Access).isBusError = false := by
    rcases h with rfl | rfl | rfl <;> simp [Access.isBusError, cmdOff, resOff, stsOff, reservedOff]
  simp [access, hb]

/-- A write to CMD answers and runs the command. -/
theorem access_cmd : access (cmdWrite v) s = command v (s.respond (.ok 0#32)) := rfl

/-- A write to RES answers and is ignored. -/
theorem access_resWrite :
    access { kind := .write, off := resOff, n := 4, v := v } s = .next (s.respond (.ok 0#32)) := by
  simp [access, Access.isBusError, writeRegister, resOff, cmdOff, reservedOff]

/-- A write to STS answers and clears flags. -/
theorem access_stsWrite :
    access { kind := .write, off := stsOff, n := 4, v := v } s =
      .next ((s.respond (.ok 0#32)).withTcu (s.tcu.stsWrite v)) := by
  simp [access, Access.isBusError, writeRegister, stsOff, resOff, cmdOff, reservedOff]

end AccessRules

/-- What an access leaves in the TCU state. -/
inductive AccessEffect (a : Access) (t : TcuState) : TcuState → Prop
  | quiet : AccessEffect a t t
  | command (v : Word) (h : a = cmdWrite v) {t' : TcuState} (he : CommandEffect t t') : AccessEffect a t t'
  | stsWrite (v : Word) (h : a = { kind := .write, off := stsOff, n := 4, v := v }) : AccessEffect a t (t.stsWrite v)

/-- An access always completes with one response, and touches nothing else but the TCU state. -/
theorem access_next (a : Access) (s : State) :
    ∃ r t, access a s = .next ((s.respond r).withTcu t) ∧ AccessEffect a s.tcu t := by
  cases h : a.isBusError with
  | true => exact ⟨.busError, s.tcu, access_busError s h, .quiet⟩
  | false =>
    cases Access.good_of_not_busError h with
    | readReg off v ho => exact ⟨_, s.tcu, access_read s v ho, .quiet⟩
    | cmd v =>
      obtain ⟨t, ht, he⟩ := command_next v (s.respond (.ok 0#32))
      exact ⟨.ok 0#32, t, ht, .command v rfl he⟩
    | resWrite v => exact ⟨.ok 0#32, s.tcu, access_resWrite s v, .quiet⟩
    | stsWrite v => exact ⟨.ok 0#32, _, access_stsWrite s v, .stsWrite v rfl⟩

/-- With nothing pending the machine waits. -/
theorem step_idle {s : State} (h : s.pending = []) : step s = .next s := by
  simp [step, h]

/-- With an event pending the step takes it. -/
theorem step_take {s : State} {e : BusEvent} {rest : List BusEvent} (h : s.pending = e :: rest) :
    step s = takeEvent e (s.take rest) := by
  simp [step, h]

/-- An access of the one master is answered. -/
theorem step_access {s : State} {m : Nat} {a : Access} {rest : List BusEvent}
    (h : s.pending = .access m a :: rest) (ho : s.owner = none ∨ s.owner = some m) :
    step s = access a ((s.take rest).own m) := by
  rw [step_take h]
  have : (s.take rest).ownedBy m = true := (State.ownedBy_iff _ _).mpr ho
  simp [takeEvent, this]

/-- A step that answers a next state did one of three things. -/
theorem step_cases {s t : State} (h : step s = .next t) :
    (s.pending = [] ∧ t = s) ∨
    (∃ rest, s.pending = .reset :: rest ∧ t = (s.take rest).withTcu TcuState.reset) ∨
    (∃ m a rest r t', s.pending = .access m a :: rest ∧ (s.owner = none ∨ s.owner = some m) ∧
      AccessEffect a s.tcu t' ∧ t = ((((s.take rest).own m).respond r).withTcu t')) := by
  cases hp : s.pending with
  | nil =>
    rw [step_idle hp] at h
    cases h
    exact .inl ⟨rfl, rfl⟩
  | cons e rest =>
    rw [step_take hp] at h
    cases e with
    | reset =>
      cases h
      exact .inr (.inl ⟨rest, rfl, rfl⟩)
    | accessOverlappingReset m a => cases h
    | access m a =>
      cases ho : (s.take rest).ownedBy m with
      | false => simp [takeEvent, ho] at h
      | true =>
        obtain ⟨r, t', ht, he⟩ := access_next a ((s.take rest).own m)
        simp only [takeEvent, ho, if_true, ht] at h
        cases h
        exact .inr (.inr ⟨m, a, rest, r, t', rfl, (State.ownedBy_iff _ _).mp ho, he, rfl⟩)

end Sys2Proof.Machine
end

