-- ==== Sys2Proof/Tests/Slice0.lean ====
section
/-! SUPPORT. Tests of single steps against the worked examples and vectors of 95_test_vectors.md, and a concrete
witness for the hypotheses of every statement that has some. Expected values are the spec's. -/

namespace Sys2Proof.Tests

open Sys2Proof.Machine Sys2Proof.Safety

/-! ### The test configuration TC1 and small states (95_test_vectors.md) -/

/-- RSSI_BASE of TC1: `(r >> 1) - 160`. -/
def tc1Rssi (r : BitVec 16) : BitVec 16 := BitVec.ofInt 16 ((r.toNat / 2 : Nat) - 160 : Int)

/-- TC1; the entries the tests do not use are 0. -/
def tc1 : Config where
  window := 0x4000000#28
  ctcssTable := #v[670#16, 0, 0, 0, 0, 0, 0, 0, 885, 0, 0, 0, 1000, 0, 0, 0, 0, 0, 0, 0, 0, 0, 0, 0, 0, 0, 0, 0, 0, 0,
    0, 0, 0, 0, 0, 0, 0, 0, 0, 0, 0, 0, 0, 0, 0, 0, 0, 0, 0, 2541]
  dcsTable := #v[0x013#11, 0, 0, 0x019, 0, 0, 0, 0, 0, 0, 0, 0, 0, 0, 0, 0, 0, 0, 0, 0, 0, 0, 0, 0, 0, 0, 0, 0, 0, 0,
    0, 0, 0, 0, 0, 0, 0, 0, 0, 0, 0, 0, 0, 0, 0, 0, 0, 0, 0, 0, 0, 0, 0, 0, 0, 0, 0, 0, 0, 0,
    0, 0, 0, 0, 0, 0, 0, 0, 0, 0, 0, 0, 0, 0, 0, 0, 0, 0, 0, 0, 0, 0, 0, 0, 0, 0, 0, 0, 0, 0,
    0, 0, 0, 0, 0, 0, 0, 0, 0, 0, 0, 0, 0, 0x1EC]
  bandsPred := 1
  dbmCorr := #v[BitVec.ofInt 16 (-15), BitVec.ofInt 16 (-7)]
  rssiBase := Config.rssiTableOf tc1Rssi

/-- A state of TC1 with the given TCU state and events, before any access. -/
def at0 (t : TcuState) (events : List BusEvent) : State :=
  { cfg := tc1, tcu := t, owner := none, pending := events, responses := [] }

/-- Master 0 writes a word to CMD. -/
def cmd (v : Word) : BusEvent := .access 0 (write32 0x0#4 v)

/-- The TCU state and the newest response of a next state. -/
def seen : Host.Outcome State Fault Refusal → Option (TcuState × Option BusResponse)
  | .next s => some (s.tcu, s.responses.head?)
  | .fault _ => none
  | .refused _ => none

/-- The refusal. -/
def refusal : Host.Outcome State Fault Refusal → Option Refusal
  | .next _ => none
  | .fault _ => none
  | .refused r => some r

/-- What one step from reset values under TC1 leaves in the TCU. -/
def runOne (e : BusEvent) : Option (TcuState × Option BusResponse) := seen (step (at0 TcuState.reset [e]))

/-- A completed command. -/
def done (r : Word) : Option (TcuState × Option BusResponse) := some (⟨r, true, false, false⟩, some (.ok 0#32))

/-- A command that ended in IndexError from reset. -/
def indexError : Option (TcuState × Option BusResponse) := some (⟨0#32, false, true, false⟩, some (.ok 0#32))

/-- A command that ended in IllegalCommand from reset. -/
def illegalCommand : Option (TcuState × Option BusResponse) := some (⟨0#32, false, false, true⟩, some (.ok 0#32))

/-! ### Decoding: words written out from the bit patterns of 40_fec.md, 41_tone.md and 42_rssi.md -/

theorem test_decode_golay : decode 0b00010000000000000000100000011001#32 = .ok (.golay 0x819#12) := by decide
theorem test_decode_dcscode : decode 0b00100000000000000000000001100111#32 = .ok (.dcscode 103#8) := by decide
theorem test_decode_dcsw : decode 0b00110000000000000000000000000011#32 = .ok (.dcsw 3#8) := by decide
theorem test_decode_dcswn : decode 0b00110000000000000000000100000011#32 = .ok (.dcswn 3#8) := by decide
theorem test_decode_ctfreq : decode 0b01000000000000000000000000001000#32 = .ok (.ctfreq 8#8) := by decide
theorem test_decode_ctcw : decode 0b01010000000000000000001101110101#32 = .ok (.ctcw 885#16) := by decide
theorem test_decode_tgscale : decode 0b01100000000000000000001111101000#32 = .ok (.tgscale 1000#16) := by decide
theorem test_decode_rssidbm : decode 0b01110000000000010000000011001000#32 = .ok (.rssidbm 1#8 200#16) := by decide
theorem test_decode_slevel :
    decode 0b10000000000000001111111110111100#32 = .ok (.slevel (BitVec.ofInt 16 (-68))) := by decide
theorem test_decode_plusdb :
    decode 0b10010000000000001111111111000111#32 = .ok (.plusdb (BitVec.ofInt 16 (-57))) := by decide
/-- 30_encoding.md R53, R54. -/
theorem test_decode_refuses :
    decode 0x00000000#32 = .error .reservedOpcode ∧ decode 0xA0000000#32 = .error .reservedOpcode ∧
    decode 0x10001000#32 = .error .reservedBits ∧ decode 0x30000200#32 = .error .reservedBits ∧
    decodeBytes [0x00#8, 0x00#8, 0x10#8] = .error .truncated := by decide
/-- The table's numbering and the little-endian image (20_memory.md R35). -/
theorem test_decode_table_word :
    decodeTableWord 32 0x30000103 = some (.dcswn 3#8) ∧
    decodeBytes [0x03#8, 0x01#8, 0x00#8, 0x30#8, 0xFF#8] = .ok (.dcswn 3#8, [0xFF#8]) := by decide
theorem test_encode_rssidbm : encode (.rssidbm 1#8 200#16) = 0x700100C8#32 := by decide

/-! ### Ill-formed assembler lines are refused, each check in turn (30_encoding.md R59) -/

theorem test_ill_formed_lines :
    (AsmLine.golay 0x1000).wellFormed = false ∧ (AsmLine.dcscode 256).wellFormed = false ∧
    (AsmLine.dcsw (-1)).wellFormed = false ∧ (AsmLine.dcswn 256).wellFormed = false ∧
    (AsmLine.ctfreq 256).wellFormed = false ∧ (AsmLine.ctcw 0x10000).wellFormed = false ∧
    (AsmLine.tgscale (-1)).wellFormed = false ∧ (AsmLine.rssidbm 256 0).wellFormed = false ∧
    (AsmLine.rssidbm 0 0x10000).wellFormed = false ∧ (AsmLine.slevel 32768).wellFormed = false ∧
    (AsmLine.plusdb (-32769)).wellFormed = false ∧ (AsmLine.cmdW 0x100000000).wellFormed = false ∧
    (AsmLine.stsW (-1)).wellFormed = false ∧ (AsmLine.dcsword .dcs 256).wellFormed = false := by decide

/-- The lines of program P4 and `CLRSTS` (95_test_vectors.md; 30_encoding.md R59). -/
theorem test_assemble :
    assemble tc1 (.rssidbm 1 200) = some (memWrite 0x40000000#32 4 0x700100C8#32) ∧
    assemble tc1 (.slevel (-67)) = some (memWrite 0x40000000#32 4 0x8000FFBD#32) ∧
    assemble tc1 .clrsts = some (memWrite 0x40000008#32 4 0x6#32) ∧
    assemble tc1 (.dcsword .dcsNormal 3) = some (memWrite 0x40000000#32 4 0x30000103#32) ∧
    assemble tc1 (.golay 0x1000) = none := by decide

/-! ### The ten operations, one step each (95_test_vectors.md, parts 1 and 2) -/

theorem test_golay : runOne (cmd 0x10000819#32) = done 0x0051F819#32 := by decide +kernel
theorem test_golay_all_ones : runOne (cmd 0x10000FFF#32) = done 0x007FFFFF#32 := by decide +kernel
theorem test_dcscode_last : runOne (cmd 0x20000067#32) = done 0x000001EC#32 := by decide
theorem test_dcscode_past_end : runOne (cmd 0x20000068#32) = indexError := by decide
theorem test_dcsw : runOne (cmd 0x30000003#32) = done 0x0051F819#32 := by decide +kernel
theorem test_dcsw_past_end : runOne (cmd 0x30000068#32) = indexError := by decide
theorem test_dcswn : runOne (cmd 0x30000103#32) = done 0x002E07E6#32 := by decide +kernel
theorem test_dcswn_past_end : runOne (cmd 0x30000168#32) = indexError := by decide
theorem test_ctfreq_last : runOne (cmd 0x40000031#32) = done 0x000009ED#32 := by decide
theorem test_ctfreq_past_end : runOne (cmd 0x40000032#32) = indexError := by decide
theorem test_ctcw : runOne (cmd 0x50000375#32) = done 0x00000723#32 := by decide
theorem test_ctcw_wraps : runOne (cmd 0x5000FFFF#32) = done 0x000010A1#32 := by decide
theorem test_tgscale_before_wrap : runOne (cmd 0x60000C65#32) = done 0x00007FF7#32 := by decide
theorem test_tgscale_wraps : runOne (cmd 0x60000C66#32) = done 0x00000002#32 := by decide
theorem test_slevel_minus_68 : runOne (cmd 0x8000FFBC#32) = done 0x00000009#32 := by decide
theorem test_slevel_minus_67 : runOne (cmd 0x8000FFBD#32) = done 0x0000000A#32 := by decide
theorem test_plusdb : runOne (cmd 0x9000FFC7#32) = done 0x0000000A#32 := by decide
theorem test_plusdb_wraps : runOne (cmd 0x90007FBD#32) = done 0xFFFF8000#32 := by decide
theorem test_rssidbm_past_end : runOne (cmd 0x70020064#32) = indexError := by decide
/-- RSSIDBM #1, #200 under TC1 is -67 (95_test_vectors.md, program P4). -/
theorem test_rssidbm : executeRssidbm tc1 1#8 200#16 = .value 0xFFFFFFBD#32 := by
  have hbase : tc1.rssiBaseAt 200#16 = BitVec.ofInt 16 (-60) := by
    rw [Config.rssiBaseAt_of tc1 tc1Rssi rfl]
    decide
  have hlook : executeRssidbm tc1 1#8 200#16 = .value (placeSigned (correctedDbm (tc1.rssiBaseAt 200#16)
      (BitVec.ofInt 16 (-7)))) := lookup_of_lt (n := 2) (by decide)
  rw [hlook, hbase]
  decide

/-! ### The bus (95_test_vectors.md, "Decoder and bus") -/

/-- Both an illegal bit and a bad index: IllegalCommand only (60_exceptions.md R88). -/
theorem test_illegal_before_index : runOne (cmd 0x20000168#32) = illegalCommand := by decide
theorem test_zero_word_is_illegal : runOne (cmd 0x00000000#32) = illegalCommand := by decide
theorem test_byte_read_is_bus_error :
    runOne (.access 0 { kind := .read, off := 0x4#4, n := 1, v := 0#32 }) = some (TcuState.reset, some .busError) := by
  decide
theorem test_misaligned_and_reserved_are_bus_errors :
    runOne (.access 0 (read32 0x2#4)) = some (TcuState.reset, some .busError) ∧
    runOne (.access 0 (read32 0xC#4)) = some (TcuState.reset, some .busError) ∧
    runOne (.access 0 { kind := .write, off := 0x0#4, n := 2, v := 0x1000#32 }) =
      some (TcuState.reset, some .busError) := by decide
theorem test_cmd_reads_as_zero :
    seen (step (at0 ⟨0x7FFFFF#32, true, true, true⟩ [.access 0 (read32 0x0#4)])) =
      some (⟨0x7FFFFF#32, true, true, true⟩, some (.ok 0#32)) := by decide
theorem test_res_and_sts_read :
    seen (step (at0 ⟨0x7FFFFF#32, true, false, true⟩ [.access 0 (read32 0x4#4)])) =
      some (⟨0x7FFFFF#32, true, false, true⟩, some (.ok 0x7FFFFF#32)) ∧
    seen (step (at0 ⟨0x7FFFFF#32, true, false, true⟩ [.access 0 (read32 0x8#4)])) =
      some (⟨0x7FFFFF#32, true, false, true⟩, some (.ok 0x5#32)) := by decide
theorem test_sts_write_clears :
    seen (step (at0 ⟨0#32, true, true, true⟩ [.access 0 (write32 0x8#4 0xFFFFFFFF#32)])) =
      some (⟨0#32, true, false, false⟩, some (.ok 0#32)) ∧
    seen (step (at0 ⟨0#32, false, true, true⟩ [.access 0 (write32 0x8#4 0x1#32)])) =
      some (⟨0#32, false, true, true⟩, some (.ok 0#32)) := by decide
theorem test_res_write_ignored :
    seen (step (at0 ⟨0x7FFFFF#32, true, false, false⟩ [.access 0 (write32 0x4#4 0x12345678#32)])) =
      some (⟨0x7FFFFF#32, true, false, false⟩, some (.ok 0#32)) := by decide
theorem test_reset_event :
    seen (step (at0 ⟨0x7FFFFF#32, true, true, true⟩ [.reset])) = some (TcuState.reset, none) := by decide
theorem test_second_master_refused :
    refusal (step { at0 TcuState.reset [.access 1 (read32 0x4#4)] with owner := some 0 }) =
      some .secondBusMaster := by decide
theorem test_overlap_refused :
    refusal (step (at0 TcuState.reset [.accessOverlappingReset 0 (read32 0x4#4)])) = some .accessOverlapsReset := by
  decide
/-- A failing command after a successful one leaves RES stale with VALID 0 (program P5, step 8). -/
theorem test_stale_result :
    seen (step (at0 ⟨0x51F819#32, true, false, false⟩ [cmd 0x200000C8#32])) =
      some (⟨0x51F819#32, false, true, false⟩, some (.ok 0#32)) := by decide
/-- After reset the machine waits, and a word placed by `withFetchWord` runs first. -/
theorem test_reset_then_fetch_word :
    seen (step State.reset) = some (TcuState.reset, none) ∧
    seen (step (State.reset.withFetchWord 32 0x50000226)) = done 1135#32 := by decide
/-- The window of TC1 (20_memory.md R31). -/
theorem test_routing :
    route tc1 (memRead 0x4000000F#32 4) = some (read32 0xF#4) ∧ route tc1 (memRead 0x40000000#32 4) = some (read32 0x0#4) ∧
    route tc1 (memRead 0x3FFFFFFF#32 4) = none ∧ route tc1 (memRead 0x40000010#32 4) = none := by decide

/-! ### Witnesses: concrete states and operands that meet the hypotheses of each statement -/

/-- A next state is answered. -/
def answers (o : Host.Outcome State Fault Refusal) : Bool := (seen o).isSome

/-- An answer is a next state. -/
theorem next_of_answers {o : Host.Outcome State Fault Refusal} (h : answers o = true) : ∃ t, o = .next t := by
  cases o with
  | next t => exact ⟨t, rfl⟩
  | fault r => cases r
  | refused r => cases h

/-- Master 0 may access a state of TC1 that nobody has accessed. -/
theorem at0_mayAccess (t : TcuState) (events : List BusEvent) : mayAccess (at0 t events) 0 := .inl rfl

theorem witness_EncodeOfDecodeIsSame : decode 0x70FFFFFF#32 = .ok (.rssidbm 0xFF#8 0xFFFF#16) := by decide

theorem witness_ReservedOpcodesAreIllegal :
    (0x00000000#32).extractLsb' 28 4 = 0x0#4 ∧ 0xA#4 ≤ (0xA0000000#32).extractLsb' 28 4 ∧
    0xA#4 ≤ (0xFFFFFFFF#32).extractLsb' 28 4 := by decide

/-- One word for each clause: the lowest reserved bit alone. -/
theorem witness_ReservedBitsAreIllegal :
    ((0x10001000#32).extractLsb' 28 4 = 0x1#4 ∧ (0x10001000#32).extractLsb' 12 16 ≠ 0#16) ∧
    ((0x20000100#32).extractLsb' 28 4 = 0x2#4 ∧ (0x20000100#32).extractLsb' 8 20 ≠ 0#20) ∧
    ((0x30000200#32).extractLsb' 28 4 = 0x3#4 ∧ (0x30000200#32).extractLsb' 9 19 ≠ 0#19) ∧
    ((0x40000100#32).extractLsb' 28 4 = 0x4#4 ∧ (0x40000100#32).extractLsb' 8 20 ≠ 0#20) ∧
    ((0x50010000#32).extractLsb' 28 4 = 0x5#4 ∧ (0x50010000#32).extractLsb' 16 12 ≠ 0#12) ∧
    ((0x60010000#32).extractLsb' 28 4 = 0x6#4 ∧ (0x60010000#32).extractLsb' 16 12 ≠ 0#12) ∧
    ((0x71000000#32).extractLsb' 28 4 = 0x7#4 ∧ (0x71000000#32).extractLsb' 24 4 ≠ 0#4) ∧
    ((0x80010000#32).extractLsb' 28 4 = 0x8#4 ∧ (0x80010000#32).extractLsb' 16 12 ≠ 0#12) ∧
    ((0x90010000#32).extractLsb' 28 4 = 0x9#4 ∧ (0x90010000#32).extractLsb' 16 12 ≠ 0#12) := by decide

theorem witness_RegisterImagesAreLittleEndian : 3 < 4 ∧ 7 < 8 ∧ decode 0x9000FFC7#32 = .ok (.plusdb 0xFFC7#16) := by
  decide

/-- The running values of the trace for d = 0x819 (95_test_vectors.md). -/
def traceOf819 (k : Nat) : BitVec 24 :=
  [0x000819#24, 0x0018D8, 0x00395A, 0x007A5E, 0x00FC56, 0x01F046, 0x03E08C, 0x07C118, 0x0F8230, 0x1F0460, 0x3E08C0,
    0x7C196A, 0xF83A3E].getD k 0#24

/-- The spec's own trace meets the hypotheses, and the command words of both clauses exist at their boundaries. -/
theorem witness_GolayRule :
    traceOf819 0 = (0x819#12).setWidth 24 ∧
    (∀ k, k < 12 → traceOf819 (k + 1) =
      if (traceOf819 k <<< 1).getLsbD 12 = true then (traceOf819 k <<< 1) ^^^ 0x08EA#24 else traceOf819 k <<< 1) ∧
    ((0x10000FFF#32).extractLsb' 28 4 = 0x1#4 ∧ (0x10000FFF#32).extractLsb' 12 16 = 0#16) ∧
    ((0x18000000#32).extractLsb' 28 4 = 0x1#4 ∧ (0x18000000#32).extractLsb' 12 16 ≠ 0#16) := by decide

theorem witness_DcscodeRule :
    (103#8).toNat < 104 ∧ 104 ≤ (104#8).toNat ∧
    ((0x200000FF#32).extractLsb' 28 4 = 0x2#4 ∧ (0x200000FF#32).extractLsb' 8 20 = 0#20) ∧
    ((0x28000000#32).extractLsb' 28 4 = 0x2#4 ∧ (0x28000000#32).extractLsb' 8 20 ≠ 0#20) := by decide

theorem witness_DcswRule :
    (103#8).toNat < 104 ∧ 104 ≤ (104#8).toNat ∧
    ((0x300000FF#32).extractLsb' 28 4 = 0x3#4 ∧ (0x300000FF#32).extractLsb' 8 1 = 0#1 ∧
      (0x300000FF#32).extractLsb' 9 19 = 0#19) ∧
    ((0x30000200#32).extractLsb' 28 4 = 0x3#4 ∧ (0x30000200#32).extractLsb' 8 1 = 0#1 ∧
      (0x30000200#32).extractLsb' 9 19 ≠ 0#19) := by decide

theorem witness_DcswnRule :
    (103#8).toNat < 104 ∧ 104 ≤ (104#8).toNat ∧
    ((0x300001FF#32).extractLsb' 28 4 = 0x3#4 ∧ (0x300001FF#32).extractLsb' 8 1 = 1#1 ∧
      (0x300001FF#32).extractLsb' 9 19 = 0#19) ∧
    ((0x30000300#32).extractLsb' 28 4 = 0x3#4 ∧ (0x30000300#32).extractLsb' 8 1 = 1#1 ∧
      (0x30000300#32).extractLsb' 9 19 ≠ 0#19) := by decide

theorem witness_CtfreqRule :
    (49#8).toNat < 50 ∧ 50 ≤ (50#8).toNat ∧
    ((0x400000FF#32).extractLsb' 28 4 = 0x4#4 ∧ (0x400000FF#32).extractLsb' 8 20 = 0#20) ∧
    ((0x40000100#32).extractLsb' 28 4 = 0x4#4 ∧ (0x40000100#32).extractLsb' 8 20 ≠ 0#20) := by decide

theorem witness_CtcwRule :
    ((0x5000FFFF#32).extractLsb' 28 4 = 0x5#4 ∧ (0x5000FFFF#32).extractLsb' 16 12 = 0#12) ∧
    ((0x50010000#32).extractLsb' 28 4 = 0x5#4 ∧ (0x50010000#32).extractLsb' 16 12 ≠ 0#12) := by decide

theorem witness_TgscaleRule :
    ((0x6000FFFF#32).extractLsb' 28 4 = 0x6#4 ∧ (0x6000FFFF#32).extractLsb' 16 12 = 0#12) ∧
    ((0x60010000#32).extractLsb' 28 4 = 0x6#4 ∧ (0x60010000#32).extractLsb' 16 12 ≠ 0#12) := by decide

theorem witness_RssidbmRule :
    (1#8).toNat < (at0 TcuState.reset []).cfg.nBands ∧ (at0 TcuState.reset []).cfg.nBands ≤ (2#8).toNat ∧
    ((0x70FFFFFF#32).extractLsb' 28 4 = 0x7#4 ∧ (0x70FFFFFF#32).extractLsb' 24 4 = 0#4) ∧
    ((0x71000000#32).extractLsb' 28 4 = 0x7#4 ∧ (0x71000000#32).extractLsb' 24 4 ≠ 0#4) := by decide

theorem witness_SlevelRule :
    -67 ≤ (BitVec.ofInt 16 (-67)).toInt ∧ (BitVec.ofInt 16 (-68)).toInt < -67 ∧
    ((0x8000FFFF#32).extractLsb' 28 4 = 0x8#4 ∧ (0x8000FFFF#32).extractLsb' 16 12 = 0#12) ∧
    ((0x80010000#32).extractLsb' 28 4 = 0x8#4 ∧ (0x80010000#32).extractLsb' 16 12 ≠ 0#12) := by decide

theorem witness_PlusdbRule :
    ((0x9000FFFF#32).extractLsb' 28 4 = 0x9#4 ∧ (0x9000FFFF#32).extractLsb' 16 12 = 0#12) ∧
    ((0x90010000#32).extractLsb' 28 4 = 0x9#4 ∧ (0x90010000#32).extractLsb' 16 12 ≠ 0#12) := by decide

/-- Both sides of every index bound, and an operation without an index. -/
theorem witness_IndexErrorExactlyOutOfRange :
    indexOutOfRange tc1 (.dcscode 104#8) ∧ ¬ indexOutOfRange tc1 (.dcscode 103#8) ∧
    indexOutOfRange tc1 (.ctfreq 50#8) ∧ ¬ indexOutOfRange tc1 (.ctfreq 49#8) ∧
    indexOutOfRange tc1 (.rssidbm 2#8 0#16) ∧ ¬ indexOutOfRange tc1 (.rssidbm 1#8 0#16) ∧
    ¬ indexOutOfRange tc1 (.golay 0#12) := by
  simp [indexOutOfRange, tc1, Config.nBands]

theorem witness_IllegalCommandExactlyIllegalWords : legal 0x10001000#32 = false ∧ legal 0x10000000#32 = true := by
  decide

theorem witness_CommandsReadNoTcuState :
    (at0 TcuState.reset []).cfg = (at0 ⟨7#32, true, true, true⟩ []).cfg ∧
    (∃ s', command 0x50000375#32 (at0 TcuState.reset []) = .next s') ∧
    (∃ t', command 0x50000375#32 (at0 ⟨7#32, true, true, true⟩ []) = .next t') :=
  ⟨rfl, next_of_answers (by decide), next_of_answers (by decide)⟩

/-- A completed command and one that ends in IndexError. -/
theorem witness_CommandFrame :
    (∃ t, exec (.dcscode 103#8) (at0 ⟨0#32, false, true, false⟩ []) = .next t ∧ t.tcu.valid = true) ∧
    (∃ t, exec (.dcscode 104#8) (at0 ⟨0#32, false, true, false⟩ []) = .next t ∧ t.tcu.valid = false) :=
  ⟨⟨_, rfl, by decide⟩, ⟨_, rfl, by decide⟩⟩

theorem witness_StepRunsTheDecodedInstruction :
    (∃ s rest, s.pending = .access 0 (write32 0x0#4 0x10000819#32) :: rest ∧ mayAccess s 0) ∧
    decode 0x10000819#32 = .ok (.golay 0x819#12) ∧ decode 0x10001819#32 = .error .reservedBits :=
  ⟨⟨at0 TcuState.reset [cmd 0x10000819#32], [], rfl, at0_mayAccess _ _⟩, by decide, by decide⟩

theorem witness_FetchWordRunsNext : decodeTableWord 32 0x700100C8 = some (.rssidbm 1#8 200#16) := by decide

/-- Every kind of bad access, and good ones at the offsets around them. -/
theorem witness_BusErrorExactlyBadAccesses :
    badAccess { kind := .read, off := 0x4#4, n := 3, v := 0#32 } ∧ badAccess { kind := .write, off := 0x0#4, n := 5, v := 0#32 } ∧
    badAccess (read32 0x3#4) ∧ badAccess (write32 0xC#4 0#32) ∧ ¬ badAccess (read32 0x8#4) ∧
    ¬ badAccess (write32 0x0#4 0#32) ∧
    (∃ s rest, s.pending = .access 0 (write32 0xC#4 0#32) :: rest ∧ mayAccess s 0) := by
  refine ⟨?_, ?_, ?_, ?_, ?_, ?_, ⟨at0 TcuState.reset [.access 0 (write32 0xC#4 0#32)], [], rfl, at0_mayAccess _ _⟩⟩ <;>
    simp [badAccess, read32, write32]

theorem witness_ReadsAnswerTheRegisters :
    ∀ off ∈ [0x0#4, 0x4#4, 0x8#4], ∃ s, mayAccess s 0 ∧
      s.pending = [.access 0 { kind := .read, off := off, n := 4, v := 0#32 }] :=
  fun off _ => ⟨at0 TcuState.reset [.access 0 { kind := .read, off := off, n := 4, v := 0#32 }], at0_mayAccess _ _, rfl⟩

theorem witness_WritesToResAndSts :
    ∀ off ∈ [0x4#4, 0x8#4], ∃ s, mayAccess s 0 ∧ s.pending = [.access 0 (write32 off 0x6#32)] :=
  fun off _ => ⟨at0 TcuState.reset [.access 0 (write32 off 0x6#32)], at0_mayAccess _ _, rfl⟩

/-- An illegal command word, a legal one, a bad access and a good one that is no command. -/
theorem witness_ErrorChecksInOrder :
    ∀ a ∈ [write32 0x0#4 0x20000168#32, write32 0x0#4 0x20000068#32, write32 0xC#4 0#32, read32 0x4#4],
      ∃ s t, s.pending = [.access 0 a] ∧ step s = .next t := by
  intro a ha
  obtain ⟨t, ht⟩ : ∃ t, step (at0 TcuState.reset [.access 0 a]) = .next t := by
    apply next_of_answers
    revert a
    decide
  exact ⟨_, t, rfl, ht⟩

/-- Each clause: a bad access met with VALID 1, an illegal word, and an index just out of range. -/
theorem witness_NoPartialResult :
    (∀ a ∈ [read32 0xC#4, write32 0x0#4 0x00000000#32, write32 0x0#4 0x20000068#32], ∃ s t,
      s.pending = [.access 0 a] ∧ s.cfg = tc1 ∧ step s = .next t) ∧
    badAccess (read32 0xC#4) ∧ legal 0x00000000#32 = false ∧ decode 0x20000068#32 = .ok (.dcscode 104#8) ∧
    indexOutOfRange tc1 (.dcscode 104#8) ∧ runOne (cmd 0x20000068#32) = indexError ∧
    seen (step (at0 ⟨7#32, true, false, false⟩ [.access 0 (read32 0xC#4)])) =
      some (⟨7#32, true, false, false⟩, some .busError) := by
  refine ⟨fun a ha => ?_, by simp [badAccess, read32], by decide, by decide, by simp [indexOutOfRange],
    test_dcscode_past_end, by decide⟩
  obtain ⟨t, ht⟩ := next_of_answers (o := step (at0 TcuState.reset [.access 0 a])) (by revert a; decide)
  exact ⟨_, t, rfl, rfl, ht⟩

/-- A repeated command, a repeated STS write and a repeated bad access. -/
theorem witness_AccessesAreIdempotent :
    ∀ a ∈ [write32 0x0#4 0x50000375#32, write32 0x8#4 0x6#32, read32 0xC#4],
      ∃ s t u, s.pending = [.access 0 a, .access 0 a] ∧ step s = .next t ∧ step t = .next u := by
  intro a ha
  have h : (match step (at0 ⟨0#32, false, true, true⟩ [.access 0 a, .access 0 a]) with
      | .next t => answers (step t)
      | .fault _ => false
      | .refused _ => false) = true := by
    revert a
    decide
  cases hs : step (at0 ⟨0#32, false, true, true⟩ [.access 0 a, .access 0 a]) with
  | next t =>
    rw [hs] at h
    obtain ⟨u, hu⟩ := next_of_answers h
    exact ⟨_, t, u, rfl, hs, hu⟩
  | fault r => cases r
  | refused r =>
    rw [hs] at h
    cases h

/-- Each clause: a command in range, one just out of range, and an illegal word, with each of the two reads after it. -/
theorem witness_ReadSeesThePrecedingCommand :
    (∀ v ∈ [0x20000067#32, 0x20000068#32, 0x00000000#32], ∀ off ∈ [0x4#4, 0x8#4], ∃ s, mayAccess s 0 ∧
      s.pending = [cmd v, .access 0 (read32 off)] ∧
      ¬ indexOutOfRange s.cfg (.dcscode 103#8) ∧ indexOutOfRange s.cfg (.dcscode 104#8)) ∧
    decode 0x20000067#32 = .ok (.dcscode 103#8) ∧ decode 0x20000068#32 = .ok (.dcscode 104#8) ∧
    legal 0x00000000#32 = false :=
  ⟨fun v _ off _ => ⟨at0 TcuState.reset [cmd v, .access 0 (read32 off)], at0_mayAccess _ _, rfl,
    by simp [indexOutOfRange], by simp [indexOutOfRange]⟩, by decide, by decide, by decide⟩

/-- The second command illegal, out of range, and in range. -/
theorem witness_StaleResultShowsInValid :
    (∀ w ∈ [0x00000000#32, 0x20000068#32, 0x20000067#32], ∃ s, mayAccess s 0 ∧ s.pending = [cmd 0x30000000#32, cmd w] ∧
      ¬ indexOutOfRange s.cfg (.dcsw 0#8) ∧ indexOutOfRange s.cfg (.dcscode 104#8) ∧
      ¬ indexOutOfRange s.cfg (.dcscode 103#8)) ∧
    decode 0x30000000#32 = .ok (.dcsw 0#8) ∧ legal 0x00000000#32 = false ∧
    decode 0x20000068#32 = .ok (.dcscode 104#8) ∧ decode 0x20000067#32 = .ok (.dcscode 103#8) :=
  ⟨fun w _ => ⟨at0 TcuState.reset [cmd 0x30000000#32, cmd w], at0_mayAccess _ _, rfl, by simp [indexOutOfRange],
    by simp [indexOutOfRange], by simp [indexOutOfRange]⟩, by decide, by decide, by decide, by decide⟩

/-- Both ends of the window, and the addresses next to it. -/
theorem witness_RoutingIsExactlyTheWindow :
    (route tc1 (memRead 0x40000000#32 4)).isSome = true ∧ (route tc1 (memRead 0x4000000F#32 4)).isSome = true ∧
    (route tc1 (memRead 0x3FFFFFFF#32 4)).isSome = false ∧ (route tc1 (memRead 0x40000010#32 4)).isSome = false := by
  decide

theorem witness_IssuedCommandRuns : ∃ s, s.pending = [] ∧ mayAccess s 0 :=
  ⟨at0 TcuState.reset [], rfl, at0_mayAccess _ _⟩

/-- IDXERR is cleared by an STS write and by reset, and set by a bad index. -/
theorem witness_IdxerrIsSticky :
    seen (step (at0 ⟨0#32, false, true, false⟩ [.access 0 (write32 0x8#4 0x2#32)])) =
      some (⟨0#32, false, false, false⟩, some (.ok 0#32)) ∧
    seen (step (at0 ⟨0#32, false, true, false⟩ [.reset])) = some (⟨0#32, false, false, false⟩, none) ∧
    seen (step (at0 ⟨0#32, false, false, false⟩ [cmd 0x20000068#32])) =
      some (⟨0#32, false, true, false⟩, some (.ok 0#32)) := by decide

/-- ILLOP is cleared by an STS write and by reset, and set by an illegal word. -/
theorem witness_IllopIsSticky :
    seen (step (at0 ⟨0#32, false, false, true⟩ [.access 0 (write32 0x8#4 0x4#32)])) =
      some (⟨0#32, false, false, false⟩, some (.ok 0#32)) ∧
    seen (step (at0 ⟨0#32, false, false, true⟩ [.reset])) = some (⟨0#32, false, false, false⟩, none) ∧
    seen (step (at0 ⟨0#32, false, false, false⟩ [cmd 0xF0000000#32])) =
      some (⟨0#32, false, false, true⟩, some (.ok 0#32)) := by decide

/-- An access that is no 32-bit write to CMD is no command. -/
theorem read_is_no_command (m : Nat) (off : BitVec 4) : ¬ isCommand (.access m (read32 off)) := by
  rintro ⟨m', v, h⟩
  simp [read32, write32] at h

theorem witness_OnlyCommandsAndResetTouchTheResult :
    ∃ s t, step s = .next t ∧ s.pending = [.access 0 (read32 0x4#4)] ∧
      ∀ e rest, s.pending = e :: rest → e ≠ .reset ∧ ¬ isCommand e := by
  obtain ⟨t, ht⟩ := next_of_answers (o := step (at0 TcuState.reset [.access 0 (read32 0x4#4)])) (by decide)
  refine ⟨_, t, ht, rfl, ?_⟩
  intro e rest h
  injection h with h1 h2
  subst h1
  exact ⟨by simp, read_is_no_command 0 _⟩

/-- A completed command, and one that ends in an error, each with a read after it. -/
theorem witness_ValidMeansMostRecentResult :
    ∀ v ∈ [0x20000067#32, 0x20000068#32], ∃ s t later, s.pending = .access 0 (write32 0x0#4 v) :: later ∧
      (∀ e ∈ later, e ≠ .reset ∧ ¬ isCommand e) ∧ later ≠ [] ∧
      Sys2Proof.core.run (later.length + 1) s = .next t := by
  intro v hv
  obtain ⟨t, ht⟩ := next_of_answers
    (o := Sys2Proof.core.run 2 (at0 TcuState.reset [cmd v, .access 0 (read32 0x4#4)])) (by
      simp only [List.mem_cons, List.not_mem_nil, or_false] at hv
      rcases hv with rfl | rfl <;> decide)
  refine ⟨_, t, [.access 0 (read32 0x4#4)], rfl, ?_, by simp, ht⟩
  intro e he
  rw [List.mem_singleton] at he
  subst he
  exact ⟨by simp, read_is_no_command 0 _⟩

/-- A state with a command's result in RES, that a command step leads on from. -/
theorem witness_StepsKeepResMeaningful : ∃ s t, resMeaningful s ∧ s.tcu.valid = true ∧ step s = .next t := by
  obtain ⟨t, ht⟩ := next_of_answers (o := step (at0 ⟨1827#32, true, false, false⟩ [cmd 0x20000067#32])) (by decide)
  have hr : isResultUnder tc1 1827#32 := ⟨.ctcw 885#16, at0 TcuState.reset [], _, rfl, rfl, rfl, by decide +kernel⟩
  exact ⟨_, t, ⟨.inl (by decide), .inr hr⟩, rfl, ht⟩

theorem witness_ConfigurationNeverChanges :
    ∃ t, Sys2Proof.core.run 2 (at0 TcuState.reset [cmd 0x20000067#32, .reset]) = .next t :=
  next_of_answers (by decide)

theorem witness_ResetPutsTheResetValues : ∃ s : State, s.pending = [.reset] ∧ s.tcu.valid = true :=
  ⟨at0 ⟨1#32, true, true, true⟩ [.reset], rfl, rfl⟩

theorem witness_WaitsForAccesses : ∃ s : State, s.pending = [] := ⟨at0 TcuState.reset [], rfl⟩

/-- A program with a command, a bad access and a reset. -/
theorem witness_SoleMasterNeverStops :
    ∃ s, mayAccess s 0 ∧ soleMaster 0 s.pending ∧ s.pending = [cmd 0x00000000#32, .access 0 (read32 0xC#4), .reset] := by
  refine ⟨at0 TcuState.reset [cmd 0x00000000#32, .access 0 (read32 0xC#4), .reset], at0_mayAccess _ _, ?_, rfl⟩
  intro e he
  simp only [at0, cmd, List.mem_cons, List.not_mem_nil, or_false] at he
  rcases he with rfl | rfl | rfl
  · exact .inr ⟨_, rfl⟩
  · exact .inr ⟨_, rfl⟩
  · exact .inl rfl

theorem witness_GolayLeastWeightIsSeven : (1#12 : BitVec 12) ≠ 0#12 := by decide

theorem witness_GolayCorrectsThreeErrors :
    ∃ (s : State) (c : Word), exec (.golay 0x819#12) s = .next (afterResult s c) ∧ weight (0x700000#32 : Word) ≤ 3 ∧
      c ^^^ 0x700000#32 = c ^^^ 0x700000#32 :=
  ⟨at0 TcuState.reset [], _, rfl, by decide, rfl⟩

theorem witness_GolayWidthDoesNotMatter : 13 ≤ 13 := Nat.le_refl 13

theorem witness_DcsPairIsComplementary : (103#8).toNat < 104 := by decide

/-- The ends of each range of 41_tone.md R71. -/
theorem witness_ScalingsAreExactInRange :
    (31736#16).toNat ≤ 31736 ∧ 31736 < (31737#16).toNat ∧ (3173#16).toNat ≤ 3173 ∧ 3174 ≤ (3174#16).toNat := by decide

theorem witness_SMeterProperties :
    (BitVec.ofInt 16 (-68)).toInt ≤ (BitVec.ofInt 16 (-67)).toInt ∧ (32700#16).toInt ≤ 32700 := by decide

end Sys2Proof.Tests
end

section
/-! PROOFS. What a command computes: when it is out of range, how its result is placed, and what its word does to the
TCU (30_encoding.md R44 and R57, 60_exceptions.md R81). -/

namespace Sys2Proof.Machine

open Sys2Proof.Safety

/-- A zero-extended result of at most 23 bits is placed. -/
theorem isPlaced_placeUnsigned {n : Nat} (hn : n ≤ 23) (r : BitVec n) : isPlaced (placeUnsigned r) := by
  have hpow : 2 ^ n ≤ 2 ^ 23 := Nat.pow_le_pow_right (by decide) hn
  have hle : (placeUnsigned r).toNat ≤ r.toNat := by
    rw [placeUnsigned, BitVec.toNat_setWidth]
    exact Nat.mod_le _ _
  exact .inl (by have := r.isLt; omega)

/-- A sign-extended i16 result is placed. -/
theorem isPlaced_placeSigned (r : BitVec 16) : isPlaced (placeSigned r) := .inr ⟨r, rfl⟩

/-- The reset value of RES is placed. -/
theorem isPlaced_zero : isPlaced 0#32 := .inl (by decide)

/-- What a legal command computes: IndexError exactly when its index is out of range, else a placed result. -/
inductive Computes (outOfRange : Prop) : ExecResult → Prop
  | value (r : Word) (hin : ¬ outOfRange) (hr : isPlaced r) : Computes outOfRange (.value r)
  | indexError (hout : outOfRange) : Computes outOfRange .indexError

/-- An operation without an index always computes its result. -/
theorem computes_value {r : Word} (hr : isPlaced r) : Computes False (.value r) := .value r id hr

/-- A look-up computes a result exactly when its index is in the table. -/
theorem computes_lookup {α : Type} {n : Nat} (table : Vector α n) (i : BitVec 8) {use : α → Word}
    (huse : ∀ x, isPlaced (use x)) : Computes (n ≤ i.toNat) (lookup table i use) := by
  rcases Nat.lt_or_ge i.toNat n with hlt | hge
  · rw [lookup_of_lt hlt]
    exact .value _ (Nat.not_le.mpr hlt) (huse _)
  · rw [lookup_of_le hge]
    exact .indexError hge

/-- Every legal command computes a placed result, or IndexError exactly when its index is out of range. -/
theorem computes_executeOf (c : Config) (i : Instr) : Computes (indexOutOfRange c i) (executeOf c i) := by
  cases i with
  | golay d => exact computes_value (isPlaced_placeUnsigned (by decide) _)
  | dcscode i => exact computes_lookup _ i fun _ => isPlaced_placeUnsigned (by decide) _
  | dcsw i => exact computes_lookup _ i fun _ => isPlaced_placeUnsigned (by decide) _
  | dcswn i =>
    exact computes_lookup c.dcsTable i (use := fun e => placeUnsigned (dcsCodeword e ^^^ dcsInvMask))
      fun _ => isPlaced_placeUnsigned (by decide) _
  | ctfreq i => exact computes_lookup _ i fun _ => isPlaced_placeUnsigned (by decide) _
  | ctcw t => exact computes_value (isPlaced_placeUnsigned (by decide) _)
  | tgscale f => exact computes_value (isPlaced_placeUnsigned (by decide) _)
  | rssidbm b r => exact computes_lookup _ b fun _ => isPlaced_placeSigned _
  | slevel d => exact computes_value (isPlaced_placeUnsigned (by decide) _)
  | plusdb d => exact computes_value (isPlaced_placeSigned _)

/-- A command that computes a result completes with it. -/
theorem exec_of_value {i : Instr} {s : State} {r : Word} (h : executeOf s.cfg i = .value r) :
    exec i s = .next (afterResult s r) := by
  rw [exec_eq, h]
  rfl

/-- What a command computes under a configuration is a result under it. -/
theorem isResultUnder_of_value {i : Instr} {s : State} {r : Word} (h : executeOf s.cfg i = .value r) :
    isResultUnder s.cfg r :=
  ⟨i, s, afterResult s r, rfl, exec_of_value h, rfl, rfl⟩

/-- A word the decoder accepts runs its instruction. -/
theorem command_of_decode_ok {v : Word} {i : Instr} (h : decode v = .ok i) (s : State) : command v s = exec i s := by
  simp [command, h]

/-- A word the decoder rejects enters IllegalCommand. -/
theorem command_of_decode_error {v : Word} {e : DecodeError} (h : decode v = .error e) (s : State) :
    command v s = .next s.illegalCommand := by
  simp [command, h]

/-- A word the decoder accepts is legal. -/
theorem legal_of_decode_ok {v : Word} {i : Instr} (h : decode v = .ok i) : legal v = true := by
  cases hl : legal v with
  | true => rfl
  | false =>
    obtain ⟨e, he⟩ := decode_error_of_not_legal hl
    rw [h] at he
    cases he

/-- A word the decoder rejects is not legal. -/
theorem not_legal_of_decode_error {v : Word} {e : DecodeError} (h : decode v = .error e) : legal v = false := by
  cases hl : legal v with
  | false => rfl
  | true =>
    obtain ⟨i, hi⟩ := decode_ok_of_legal hl
    rw [h] at hi
    cases hi

/-- What the command word `v` does to the TCU under the configuration `c`: `CommandEffect`, with the reason for each
of the three endings. -/
inductive WordEffect (c : Config) (v : Word) (t : TcuState) : TcuState → Prop
  | result (i : Instr) (r : Word) (hd : decode v = .ok i) (hin : ¬ indexOutOfRange c i) (hp : isPlaced r)
      (hr : executeOf c i = .value r) : WordEffect c v t { t with res := r, valid := true }
  | indexError (i : Instr) (hd : decode v = .ok i) (hout : indexOutOfRange c i) :
      WordEffect c v t { t with idxerr := true, valid := false }
  | illegal (hl : legal v = false) : WordEffect c v t { t with illop := true, valid := false }

/-- A command write completes with its word's effect on the TCU, and touches nothing else. -/
theorem command_wordEffect (v : Word) (s : State) :
    ∃ t, command v s = .next (s.withTcu t) ∧ WordEffect s.cfg v s.tcu t := by
  cases hd : decode v with
  | error e => exact ⟨_, command_of_decode_error hd s, .illegal (not_legal_of_decode_error hd)⟩
  | ok i =>
    refine ⟨s.tcu.finish (executeOf s.cfg i), (command_of_decode_ok hd s).trans (exec_eq i s), ?_⟩
    have hc := computes_executeOf s.cfg i
    cases hr : executeOf s.cfg i with
    | value r =>
      rw [hr] at hc
      cases hc with
      | value _ hin hp => exact .result i r hd hin hp hr
    | indexError =>
      rw [hr] at hc
      cases hc with
      | indexError hout => exact .indexError i hd hout

section WordEffectRules
variable {c : Config} {v : Word} {t t' : TcuState}

/-- VALID after a command write says whether its word was legal with its index in range. -/
theorem WordEffect.valid_iff (h : WordEffect c v t t') :
    t'.valid = true ↔ ∃ i, decode v = .ok i ∧ ¬ indexOutOfRange c i := by
  cases h with
  | result i r hd hin hp hr => exact iff_of_true rfl ⟨i, hd, hin⟩
  | indexError i hd hout =>
    refine iff_of_false Bool.false_ne_true ?_
    rintro ⟨j, hj, hin⟩
    rw [hd] at hj
    cases hj
    exact hin hout
  | illegal hl =>
    refine iff_of_false Bool.false_ne_true ?_
    rintro ⟨j, hj, -⟩
    rw [legal_of_decode_ok hj] at hl
    cases hl

/-- A command write that ends with VALID 1 left its word's result in RES. -/
theorem WordEffect.exec_of_valid {s : State} (h : WordEffect s.cfg v s.tcu t') (hv : t'.valid = true) :
    ∃ i, decode v = .ok i ∧ exec i s = .next (afterResult s t'.res) := by
  cases h with
  | result i r hd hin hp hr => exact ⟨i, hd, exec_of_value hr⟩
  | indexError i hd hout => cases hv
  | illegal hl => cases hv

/-- A legal word whose index is out of range sets IDXERR. -/
theorem WordEffect.idxerr_of_outOfRange (h : WordEffect c v t t') {i : Instr} (hd : decode v = .ok i)
    (hout : indexOutOfRange c i) : t'.idxerr = true := by
  cases h with
  | result j r hj hin hp hr =>
    rw [hd] at hj
    cases hj
    exact absurd hout hin
  | indexError j hj hout' => rfl
  | illegal hl =>
    rw [legal_of_decode_ok hd] at hl
    cases hl

/-- A word that is not legal sets ILLOP. -/
theorem WordEffect.illop_of_not_legal (h : WordEffect c v t t') (hl : legal v = false) : t'.illop = true := by
  cases h with
  | result i r hd hin hp hr =>
    rw [legal_of_decode_ok hd] at hl
    cases hl
  | indexError i hd hout =>
    rw [legal_of_decode_ok hd] at hl
    cases hl
  | illegal hl' => rfl

/-- A command write never clears IDXERR. -/
theorem WordEffect.idxerr_kept (h : WordEffect c v t t') (h1 : t.idxerr = true) : t'.idxerr = true := by
  cases h with
  | result i r hd hin hp hr => exact h1
  | indexError i hd hout => rfl
  | illegal hl => exact h1

/-- A command write that sets IDXERR was a legal word with its index out of range. -/
theorem WordEffect.outOfRange_of_idxerr_set (h : WordEffect c v t t') (h0 : t.idxerr = false)
    (h1 : t'.idxerr = true) : ∃ i, decode v = .ok i ∧ indexOutOfRange c i := by
  cases h with
  | result i r hd hin hp hr => cases h0.symm.trans h1
  | indexError i hd hout => exact ⟨i, hd, hout⟩
  | illegal hl => cases h0.symm.trans h1

/-- A command write never clears ILLOP. -/
theorem WordEffect.illop_kept (h : WordEffect c v t t') (h1 : t.illop = true) : t'.illop = true := by
  cases h with
  | result i r hd hin hp hr => exact h1
  | indexError i hd hout => exact h1
  | illegal hl => rfl

/-- A command write that sets ILLOP was no legal word. -/
theorem WordEffect.not_legal_of_illop_set (h : WordEffect c v t t') (h0 : t.illop = false)
    (h1 : t'.illop = true) : legal v = false := by
  cases h with
  | result i r hd hin hp hr => cases h0.symm.trans h1
  | indexError i hd hout => cases h0.symm.trans h1
  | illegal hl => exact hl

/-- A command write that ends with VALID 0 leaves RES alone (60_exceptions.md R89). -/
theorem WordEffect.res_of_not_valid (h : WordEffect c v t t') (hv : t'.valid = false) : t'.res = t.res := by
  cases h with
  | result i r hd hin hp hr => cases hv
  | indexError i hd hout => rfl
  | illegal hl => rfl

end WordEffectRules

end Sys2Proof.Machine
end

section
/-! PROOFS. What each access does in a step, in the terms of the claims, and everything a step can do to the TCU
with the event that made it. -/

namespace Sys2Proof.Machine

open Sys2Proof.Safety

/-- The claims' 32-bit write to offset 0x0 is the command write. -/
theorem write32_cmd (v : Word) : write32 0x0#4 v = cmdWrite v := rfl

section AdmittedAccess
variable {s : State} {m : Nat} {v : Word} {rest : List BusEvent}

/-- A read of the master answers the register and changes nothing else. -/
theorem step_read {off : BitVec 4} (hoff : off = cmdOff ∨ off = resOff ∨ off = stsOff) (ho : mayAccess s m)
    (hp : s.pending = .access m { kind := .read, off := off, n := 4, v := v } :: rest) :
    step s = .next (answered s m rest (.ok (s.tcu.readRegister off))) :=
  (step_access hp ho).trans (access_read _ v hoff)

/-- A write to RES is answered and ignored. -/
theorem step_resWrite (ho : mayAccess s m) (hp : s.pending = .access m (write32 0x4#4 v) :: rest) :
    step s = .next (answered s m rest (.ok 0#32)) :=
  (step_access hp ho).trans (access_resWrite _ v)

/-- A write to STS is answered and clears flags. -/
theorem step_stsWrite (ho : mayAccess s m) (hp : s.pending = .access m (write32 0x8#4 v) :: rest) :
    step s = .next ((answered s m rest (.ok 0#32)).withTcu (s.tcu.stsWrite v)) :=
  (step_access hp ho).trans (access_stsWrite _ v)

/-- A command write is answered and runs its word. -/
theorem step_cmdWrite (ho : mayAccess s m) (hp : s.pending = .access m (cmdWrite v) :: rest) :
    step s = command v (answered s m rest (.ok 0#32)) :=
  (step_access hp ho).trans (access_cmd _ v)

end AdmittedAccess

section StepRules
variable {s t : State} {m : Nat} {v : Word} {rest : List BusEvent}

/-- An access that was taken was the one master's. -/
theorem mayAccess_of_step {a : Access} (h : step s = .next t) (hp : s.pending = .access m a :: rest) :
    mayAccess s m := by
  rcases step_cases h with ⟨hnil, -⟩ | ⟨rest', hreset, -⟩ | ⟨m', a', rest', r, t', hp', ho, -, -⟩
  · rw [hp] at hnil
    cases hnil
  · rw [hp] at hreset
    cases hreset
  · rw [hp] at hp'
    cases hp'
    exact ho

/-- A step that took a command write had its word's effect on the TCU. -/
theorem step_wordEffect (h : step s = .next t) (hp : s.pending = .access m (cmdWrite v) :: rest) :
    WordEffect s.cfg v s.tcu t.tcu := by
  obtain ⟨t', ht, he⟩ := command_wordEffect v (answered s m rest (.ok 0#32))
  rw [step_cmdWrite (mayAccess_of_step h hp) hp, ht] at h
  cases h
  exact he

/-- A step that took a write to STS cleared flags. -/
theorem step_stsWrite_tcu (h : step s = .next t) (hp : s.pending = .access m (write32 0x8#4 v) :: rest) :
    t.tcu = s.tcu.stsWrite v := by
  rw [step_stsWrite (mayAccess_of_step h hp) hp] at h
  cases h
  rfl

/-- A step that took a reset left the TCU in its reset state. -/
theorem step_reset_tcu (h : step s = .next t) (hp : s.pending = .reset :: rest) : t.tcu = TcuState.reset := by
  rw [step_take hp] at h
  cases h
  rfl

/-- No step changes the configuration (10_state.md R24). -/
theorem step_cfg (h : step s = .next t) : t.cfg = s.cfg := by
  rcases step_cases h with ⟨-, rfl⟩ | ⟨rest, -, rfl⟩ | ⟨m, a, rest, r, t', -, -, -, rfl⟩ <;> rfl

/-- A step takes the oldest pending event, if there is one. -/
theorem step_pending (h : step s = .next t) : t.pending = s.pending.tail := by
  rcases step_cases h with ⟨hp, rfl⟩ | ⟨rest, hp, rfl⟩ | ⟨m, a, rest, r, t', hp, -, -, rfl⟩
  all_goals simp [hp]

end StepRules

/-- What a step from `s` can leave in the TCU state, with the event that did it. -/
inductive StepEffect (s : State) : TcuState → Prop
  | quiet : StepEffect s s.tcu
  | reset (rest : List BusEvent) (hp : s.pending = .reset :: rest) : StepEffect s TcuState.reset
  | command (m : Nat) (v : Word) (rest : List BusEvent) (hp : s.pending = .access m (write32 0x0#4 v) :: rest)
      {t' : TcuState} (he : WordEffect s.cfg v s.tcu t') : StepEffect s t'
  | stsWrite (m : Nat) (v : Word) (rest : List BusEvent) (hp : s.pending = .access m (write32 0x8#4 v) :: rest) :
      StepEffect s (s.tcu.stsWrite v)

/-- Every step has one of these effects on the TCU. -/
theorem step_effect {s t : State} (h : step s = .next t) : StepEffect s t.tcu := by
  rcases step_cases h with ⟨-, rfl⟩ | ⟨rest, hp, rfl⟩ | ⟨m, a, rest, r, t', hp, -, he, rfl⟩
  · exact .quiet
  · exact .reset rest hp
  · cases he with
    | quiet => exact .quiet
    | command v ha _ =>
      subst ha
      exact .command m v rest hp (step_wordEffect h hp)
    | stsWrite v ha =>
      subst ha
      exact .stsWrite m v rest hp

end Sys2Proof.Machine
end

section
/-! PROOFS. The statements about the registers and flags of the TCU (10_state.md). -/

namespace Sys2Proof.Machine

open Sys2Proof.Safety

/-! ### RES holds 0 or some command's result -/

/-- RES = 0 is meaningful under every configuration. -/
theorem resMeaningful_of_res_zero {s : State} (h : s.tcu.res = 0#32) : resMeaningful s :=
  ⟨h ▸ isPlaced_zero, .inl h⟩

/-- Whether RES is meaningful depends on the configuration and RES only. -/
theorem resMeaningful_congr {s t : State} (hc : t.cfg = s.cfg) (hr : t.tcu.res = s.tcu.res) (hs : resMeaningful s) :
    resMeaningful t := by
  rwa [resMeaningful, hc, hr]

/-- A command write leaves RES alone, or puts a placed result of this configuration there. -/
theorem WordEffect.res_cases {c : Config} {v : Word} {t t' : TcuState} (h : WordEffect c v t t') :
    t'.res = t.res ∨ isPlaced t'.res ∧ ∃ i, executeOf c i = .value t'.res := by
  cases h with
  | result i r hd hin hp hr => exact .inr ⟨hp, i, hr⟩
  | indexError i hd hout => exact .inl rfl
  | illegal hl => exact .inl rfl

/-- Everything a step can leave in RES: what it held, 0 after reset, or a command's result. -/
theorem StepEffect.res_cases {s : State} {t' : TcuState} (h : StepEffect s t') :
    t'.res = s.tcu.res ∨ t'.res = 0#32 ∨ isPlaced t'.res ∧ ∃ i, executeOf s.cfg i = .value t'.res := by
  cases h with
  | quiet => exact .inl rfl
  | reset rest hp => exact .inr (.inl rfl)
  | command m v rest hp he => exact he.res_cases.imp_right .inr
  | stsWrite m v rest hp => exact .inl rfl

/-- Settles O40, by what a step can leave in RES. -/
theorem stepsKeepResMeaningful : Obligations.StepsKeepResMeaningful := by
  intro s t hs h
  have hc := step_cfg h
  rcases (step_effect h).res_cases with hsame | hzero | ⟨hplaced, i, hr⟩
  · exact resMeaningful_congr hc hsame hs
  · exact resMeaningful_of_res_zero hzero
  · rw [← hc] at hr
    exact ⟨hplaced, .inr (isResultUnder_of_value hr)⟩

/-- Settles O41. -/
theorem resetResMeaningful : Obligations.ResetResMeaningful := resMeaningful_of_res_zero rfl

/-! ### Reads, and writes to RES and STS -/

/-- Settles O27: the step of a read, at each of the three registers. -/
theorem readsAnswerTheRegisters : Obligations.ReadsAnswerTheRegisters := by
  intro s m v rest ho
  refine ⟨fun hp => step_read (.inl rfl) ho hp, fun hp => step_read (.inr (.inl rfl)) ho hp, fun hp => ?_⟩
  exact ⟨s.tcu.sts, step_read (.inr (.inr rfl)) ho hp, s.tcu.sts_getLsbD⟩

/-- A flag of STS after a write of `bit` to it: 1 clears it, 0 keeps it (10_state.md R22). -/
theorem flag_and_not_eq_ite (flag bit : Bool) : (flag && !bit) = if bit = true then false else flag := by
  cases bit <;> simp

/-- Settles O28: the step of a write to RES, and of one to STS. -/
theorem writesToResAndSts : Obligations.WritesToResAndSts := by
  intro s m v rest ho
  refine ⟨fun hp => step_resWrite ho hp, fun hp => ?_⟩
  rw [step_stsWrite ho hp, ← flag_and_not_eq_ite, ← flag_and_not_eq_ite]
  rfl

/-! ### The sticky flags -/

section StickyFlags
variable {s : State} {t' : TcuState}

/-- A step that clears IDXERR took a reset or a write of 1 to its bit of STS. -/
theorem StepEffect.event_of_idxerr_cleared (h : StepEffect s t') (h1 : s.tcu.idxerr = true) (h0 : t'.idxerr = false) :
    ∃ rest, s.pending = .reset :: rest ∨
      ∃ m v, s.pending = .access m (write32 0x8#4 v) :: rest ∧ v.getLsbD 1 = true := by
  cases h with
  | quiet => cases h1.symm.trans h0
  | reset rest hp => exact ⟨rest, .inl hp⟩
  | command m v rest hp he => cases (he.idxerr_kept h1).symm.trans h0
  | stsWrite m v rest hp => exact ⟨rest, .inr ⟨m, v, hp, by simpa [h1] using h0⟩⟩

/-- A step that sets IDXERR took a legal command write whose index is out of range. -/
theorem StepEffect.event_of_idxerr_set (h : StepEffect s t') (h0 : s.tcu.idxerr = false) (h1 : t'.idxerr = true) :
    ∃ m v i rest, s.pending = .access m (write32 0x0#4 v) :: rest ∧ decode v = .ok i ∧ indexOutOfRange s.cfg i := by
  cases h with
  | quiet => cases h0.symm.trans h1
  | reset rest hp => cases h1
  | command m v rest hp he =>
    obtain ⟨i, hd, hout⟩ := he.outOfRange_of_idxerr_set h0 h1
    exact ⟨m, v, i, rest, hp, hd, hout⟩
  | stsWrite m v rest hp => simp [h0] at h1

/-- A step that clears ILLOP took a reset or a write of 1 to its bit of STS. -/
theorem StepEffect.event_of_illop_cleared (h : StepEffect s t') (h1 : s.tcu.illop = true) (h0 : t'.illop = false) :
    ∃ rest, s.pending = .reset :: rest ∨
      ∃ m v, s.pending = .access m (write32 0x8#4 v) :: rest ∧ v.getLsbD 2 = true := by
  cases h with
  | quiet => cases h1.symm.trans h0
  | reset rest hp => exact ⟨rest, .inl hp⟩
  | command m v rest hp he => cases (he.illop_kept h1).symm.trans h0
  | stsWrite m v rest hp => exact ⟨rest, .inr ⟨m, v, hp, by simpa [h1] using h0⟩⟩

/-- A step that sets ILLOP took a write to CMD of a word that is not legal. -/
theorem StepEffect.event_of_illop_set (h : StepEffect s t') (h0 : s.tcu.illop = false) (h1 : t'.illop = true) :
    ∃ m v rest, s.pending = .access m (write32 0x0#4 v) :: rest ∧ legal v = false := by
  cases h with
  | quiet => cases h0.symm.trans h1
  | reset rest hp => cases h1
  | command m v rest hp he => exact ⟨m, v, rest, hp, he.not_legal_of_illop_set h0 h1⟩
  | stsWrite m v rest hp => simp [h0] at h1

end StickyFlags

/-- Settles O36: the events that change IDXERR, and what each such event leaves in it. -/
theorem idxerrIsSticky : Obligations.IdxerrIsSticky := by
  intro s t h
  refine ⟨(step_effect h).event_of_idxerr_cleared, (step_effect h).event_of_idxerr_set, ?_, ?_, ?_⟩
  · intro m v i rest hp hd hout
    exact (step_wordEffect h hp).idxerr_of_outOfRange hd hout
  · intro rest hp
    rw [step_reset_tcu h hp, TcuState.reset_idxerr]
  · intro m v rest hp hv
    simp [step_stsWrite_tcu h hp, hv]

/-- Settles O37: the events that change ILLOP, and what each such event leaves in it. -/
theorem illopIsSticky : Obligations.IllopIsSticky := by
  intro s t h
  refine ⟨(step_effect h).event_of_illop_cleared, (step_effect h).event_of_illop_set, ?_, ?_, ?_⟩
  · intro m v rest hp hl
    exact (step_wordEffect h hp).illop_of_not_legal hl
  · intro rest hp
    rw [step_reset_tcu h hp, TcuState.reset_illop]
  · intro m v rest hp hv
    simp [step_stsWrite_tcu h hp, hv]

/-! ### VALID and RES between commands -/

/-- A step whose event is no command and no reset leaves VALID and RES alone. -/
theorem StepEffect.keeps_result {s : State} {t' : TcuState} (h : StepEffect s t')
    (hq : ∀ e rest, s.pending = e :: rest → e ≠ .reset ∧ ¬ isCommand e) :
    t'.valid = s.tcu.valid ∧ t'.res = s.tcu.res := by
  cases h with
  | quiet => exact ⟨rfl, rfl⟩
  | reset rest hp => exact absurd rfl (hq _ rest hp).1
  | command m v rest hp he => exact absurd ⟨m, v, rfl⟩ (hq _ rest hp).2
  | stsWrite m v rest hp => exact ⟨rfl, rfl⟩

/-- Settles O38. -/
theorem onlyCommandsAndResetTouchTheResult : Obligations.OnlyCommandsAndResetTouchTheResult :=
  fun _ _ h hq => (step_effect h).keeps_result hq

/-- No command and no reset is pending, VALID is `b` and RES is `r`: what the accesses after a command keep. -/
def resultSettled (b : Bool) (r : Word) (s : State) : Prop :=
  (∀ e ∈ s.pending, e ≠ .reset ∧ ¬ isCommand e) ∧ s.tcu.valid = b ∧ s.tcu.res = r

/-- A settled result stays settled over a step. -/
theorem step_keeps_resultSettled (b : Bool) (r : Word) (s t : State) (hs : resultSettled b r s)
    (h : step s = .next t) : resultSettled b r t := by
  obtain ⟨hq, hvalid, hres⟩ := hs
  have hhead : ∀ e rest, s.pending = e :: rest → e ≠ .reset ∧ ¬ isCommand e :=
    fun e rest hp => hq e (hp ▸ List.mem_cons_self)
  obtain ⟨hv, hr⟩ := (step_effect h).keeps_result hhead
  refine ⟨fun e he => hq e ?_, hv.trans hvalid, hr.trans hres⟩
  rw [step_pending h] at he
  exact List.mem_of_mem_tail he

/-- Settles O39: the first step has its word's effect, and the rest of the run keeps VALID and RES. -/
theorem validMeansMostRecentResult : Obligations.ValidMeansMostRecentResult := by
  intro s t m v later hp hlater hrun
  obtain ⟨u, hu, hrest⟩ := run_succ_cases hrun
  have he : WordEffect s.cfg v s.tcu u.tcu := step_wordEffect hu hp
  have hpending : u.pending = later := by rw [step_pending hu, hp, List.tail_cons]
  have hsettled : resultSettled u.tcu.valid u.tcu.res u := ⟨hpending ▸ hlater, rfl, rfl⟩
  obtain ⟨-, hvalid, hres⟩ := run_keeps (step_keeps_resultSettled _ _) _ u t hsettled hrest
  rw [hvalid, hres]
  exact ⟨he.valid_iff, he.exec_of_valid, he.res_of_not_valid⟩

/-! ### The configuration, and the command word of a table row -/

/-- Settles O42: no step changes the configuration, so no run does. -/
theorem configurationNeverChanges : Obligations.ConfigurationNeverChanges := by
  intro k s t h
  exact run_keeps (P := fun u => u.cfg = s.cfg) (fun _ _ hc hstep => (step_cfg hstep).trans hc) k s t rfl h

/-- A row's word that the decoder reads is at most 32 bits long and decodes. -/
theorem decode_of_decodeTableWord {nbits w : Nat} {i : Instr} (h : decodeTableWord nbits w = some i) :
    decode (tableWord nbits w) = .ok i := by
  have hn : nbits ≤ 32 := by
    by_contra hlong
    simp [decodeTableWord, hlong] at h
  rw [decodeTableWord_eq nbits w hn] at h
  cases hd : decode (tableWord nbits w) with
  | ok j => rw [hd] at h; cases h; rfl
  | error e => rw [hd] at h; cases h

/-- The master of `withFetchWord` may make an access. -/
theorem mayAccess_owner_getD (s : State) : mayAccess s (s.owner.getD 0) := by
  cases ho : s.owner <;> simp [mayAccess, ho]

/-- Settles O25: the placed word is a command write, and it decodes. -/
theorem fetchWordRunsNext : Obligations.FetchWordRunsNext := by
  intro s nbits w i h
  have hstep : step (s.withFetchWord nbits w) =
      command (tableWord nbits w) (answered s (s.owner.getD 0) s.pending (.ok 0#32)) :=
    step_cmdWrite (s := s.withFetchWord nbits w) (mayAccess_owner_getD s) rfl
  exact ⟨_, mayAccess_owner_getD s, hstep.trans (command_of_decode_ok (decode_of_decodeTableWord h) _)⟩

end Sys2Proof.Machine
end

section
/-! PROOFS. The decoder reads back what the encoder wrote: a word that one row selects is read by that row alone
(30_encoding.md R51), and each field stands where its row's format puts it (R46 to R50). -/

namespace Sys2Proof

/-! ### The rows of the opcode map exclude each other -/

/-- A row selects a word that has its match value under its mask. -/
theorem Row.selects_iff (r : Row) (v : Word) : r.selects v = true ↔ v &&& r.mask = r.pattern := beq_iff_eq

/-- Two rows that a word matches agree on the bits both masks keep. -/
theorem Row.patterns_agree {r r' : Row} {v : Word} (h : r.selects v = true) (h' : r'.selects v = true) :
    r.pattern &&& r'.mask = r'.pattern &&& r.mask := by
  rw [Row.selects_iff] at h h'
  rw [← h, ← h', BitVec.and_assoc, BitVec.and_assoc, BitVec.and_comm r.mask]

/-- Any two rows of the opcode map differ on a bit both masks keep. -/
theorem opcodeTable_patterns_differ :
    opcodeTable.Pairwise fun r r' => r.pattern &&& r'.mask ≠ r'.pattern &&& r.mask := by decide

/-- No word is selected by two rows of the opcode map (30_encoding.md R51). -/
theorem opcodeTable_rows_exclude :
    opcodeTable.Pairwise fun r r' => ∀ v, ¬ (r.selects v = true ∧ r'.selects v = true) :=
  opcodeTable_patterns_differ.imp fun hne _ hsel => hne (Row.patterns_agree hsel.1 hsel.2)

/-- Of rows that exclude each other on a word, the one that selects it is the first that does. -/
theorem find?_selects_of_pairwise {v : Word} {r : Row} {rows : List Row}
    (hx : rows.Pairwise fun r r' => ¬ (r.selects v = true ∧ r'.selects v = true)) (hmem : r ∈ rows)
    (hsel : r.selects v = true) : rows.find? (fun r => r.selects v) = some r := by
  induction rows with
  | nil => cases hmem
  | cons r₀ rows ih =>
    rw [List.pairwise_cons] at hx
    rcases List.mem_cons.mp hmem with rfl | hin
    · exact List.find?_cons_of_pos hsel
    · have hskip : ¬ r₀.selects v = true := fun h₀ => hx.1 r hin ⟨h₀, hsel⟩
      rw [List.find?_cons_of_neg (p := fun r : Row => r.selects v) hskip]
      exact ih hx.2 hin

/-- A word with row `k`'s match value under its mask decodes to that row's operation. -/
theorem decode_of_row (k : Nat) (hk : k < opcodeTable.length) {v : Word}
    (hrow : v &&& opcodeTable[k].mask = opcodeTable[k].pattern) : decode v = .ok (opcodeTable[k].build v) :=
  (decode_ok_iff v _).mpr ⟨opcodeTable[k], find?_selects_of_pairwise (opcodeTable_rows_exclude.imp fun h => h v)
    (List.getElem_mem hk) ((Row.selects_iff _ v).mpr hrow), rfl⟩

/-! ### The fields of an encoded word -/

/-- The lowest field of a word, put below bits that are 0 there, reads back. -/
theorem extractLsb'_or_setWidth {n : Nat} (hn : n ≤ 32) (p : Word) (hp : p.extractLsb' 0 n = 0#n) (d : BitVec n) :
    (p ||| d.setWidth 32).extractLsb' 0 n = d := by
  apply BitVec.eq_of_getLsbD_eq
  intro k hk
  have hzero : p.getLsbD k = false := by
    have hbit := congrArg (fun x => x.getLsbD k) hp
    simpa [hk] using hbit
  simp only [BitVec.getLsbD_extractLsb', BitVec.getLsbD_or, BitVec.getLsbD_setWidth, Nat.zero_add, hzero]
  simp [hk, show k < 32 by omega]

/-- The band of an encoded RSSIDBM reads back (30_encoding.md R50). -/
theorem fieldBand_encode_rssidbm (b : BitVec 8) (r : BitVec 16) : fieldBand (encode (.rssidbm b r)) = b := by
  apply BitVec.eq_of_getLsbD_eq
  intro k hk
  have hzero : (0x70000000#32).getLsbD (16 + k) = false := by
    have hall : ∀ k < 8, (0x70000000#32).getLsbD (16 + k) = false := by decide
    exact hall k hk
  simp only [fieldBand, encode, BitVec.getLsbD_extractLsb', BitVec.getLsbD_or, BitVec.getLsbD_shiftLeft,
    BitVec.getLsbD_setWidth, hzero, BitVec.getLsbD_of_ge r (16 + k) (by omega)]
  simp [hk, show k < 32 by omega, show 16 + k < 32 by omega]

/-- The raw RSSI of an encoded RSSIDBM reads back: the band above it leaves its bits 0 (30_encoding.md R50). -/
theorem fieldH_encode_rssidbm (b : BitVec 8) (r : BitVec 16) : fieldH (encode (.rssidbm b r)) = r := by
  refine extractLsb'_or_setWidth (by decide) _ ?_ r
  apply BitVec.eq_of_getLsbD_eq
  intro k hk
  have hzero : (0x70000000#32).getLsbD k = false := by
    have hall : ∀ k < 16, (0x70000000#32).getLsbD k = false := by decide
    exact hall k hk
  simp only [BitVec.getLsbD_extractLsb', BitVec.getLsbD_or, BitVec.getLsbD_shiftLeft, Nat.zero_add, hzero]
  simp [hk]

/-- An operation's only field, put at the bottom of its row's match value, decodes to the operation on that field. -/
theorem decode_of_low_field {n : Nat} (k : Nat) (hk : k < opcodeTable.length) (op : BitVec n → Instr)
    (hbuild : ∀ v, opcodeTable[k].build v = op (v.extractLsb' 0 n)) (hn : n ≤ 32) (d : BitVec n) {p : Word}
    (hp : p.extractLsb' 0 n = 0#n)
    (hrow : (p ||| d.setWidth 32) &&& opcodeTable[k].mask = opcodeTable[k].pattern) :
    decode (p ||| d.setWidth 32) = .ok (op d) := by
  rw [decode_of_row k hk hrow, hbuild, extractLsb'_or_setWidth hn p hp d]

/-- Decoding the word of an instruction gives the instruction back. -/
theorem decode_encode (i : Instr) : decode (encode i) = .ok i := by
  cases i with
  | golay d =>
    exact decode_of_low_field 0 (by decide) .golay (fun _ => rfl) (by decide) d (p := 0x10000000#32) (by decide)
      (Laws.OwnRow.golay d)
  | dcscode i =>
    exact decode_of_low_field 1 (by decide) .dcscode (fun _ => rfl) (by decide) i (p := 0x20000000#32) (by decide)
      (Laws.OwnRow.dcscode i)
  | dcsw i =>
    exact decode_of_low_field 2 (by decide) .dcsw (fun _ => rfl) (by decide) i (p := 0x30000000#32) (by decide)
      (Laws.OwnRow.dcsw i)
  | dcswn i =>
    exact decode_of_low_field 3 (by decide) .dcswn (fun _ => rfl) (by decide) i (p := 0x30000100#32) (by decide)
      (Laws.OwnRow.dcswn i)
  | ctfreq i =>
    exact decode_of_low_field 4 (by decide) .ctfreq (fun _ => rfl) (by decide) i (p := 0x40000000#32) (by decide)
      (Laws.OwnRow.ctfreq i)
  | ctcw t =>
    exact decode_of_low_field 5 (by decide) .ctcw (fun _ => rfl) (by decide) t (p := 0x50000000#32) (by decide)
      (Laws.OwnRow.ctcw t)
  | tgscale f =>
    exact decode_of_low_field 6 (by decide) .tgscale (fun _ => rfl) (by decide) f (p := 0x60000000#32) (by decide)
      (Laws.OwnRow.tgscale f)
  | rssidbm b r =>
    have hbuild : opcodeTable[7].build (encode (.rssidbm b r)) =
        .rssidbm (fieldBand (encode (.rssidbm b r))) (fieldH (encode (.rssidbm b r))) := rfl
    rw [decode_of_row 7 (by decide) (Laws.OwnRow.rssidbm b r), hbuild, fieldBand_encode_rssidbm,
      fieldH_encode_rssidbm]
  | slevel d =>
    exact decode_of_low_field 8 (by decide) .slevel (fun _ => rfl) (by decide) d (p := 0x80000000#32) (by decide)
      (Laws.OwnRow.slevel d)
  | plusdb d =>
    exact decode_of_low_field 9 (by decide) .plusdb (fun _ => rfl) (by decide) d (p := 0x90000000#32) (by decide)
      (Laws.OwnRow.plusdb d)

end Sys2Proof
end

section
/-! PROOFS. The TCU state that a command write leaves, as a function of the configuration, the word and the TCU state
before it, and the same of every access (30_encoding.md R44, 20_memory.md R34). -/

namespace Sys2Proof.Machine

open Sys2Proof.Safety

/-! ### After a command write -/

/-- The TCU state after a write of `v` to CMD. -/
def tcuAfterCommand (c : Config) (v : Word) (t : TcuState) : TcuState :=
  match decode v with
  | .ok i => t.finish (executeOf c i)
  | .error _ => t.illegalCommandEntry

/-- A command leaves that TCU state, and changes nothing else. -/
theorem command_eq (v : Word) (s : State) : command v s = .next (s.withTcu (tcuAfterCommand s.cfg v s.tcu)) := by
  unfold tcuAfterCommand
  cases hd : decode v with
  | ok i => exact (command_of_decode_ok hd s).trans (exec_eq i s)
  | error e => exact command_of_decode_error hd s

section CommandEndings
variable {c : Config} {v : Word} {i : Instr}

/-- A legal command with its index in range computes a placed result. -/
theorem executeOf_of_inRange (h : ¬ indexOutOfRange c i) : ∃ r, isPlaced r ∧ executeOf c i = .value r := by
  have hc := computes_executeOf c i
  cases hr : executeOf c i with
  | value r =>
    rw [hr] at hc
    cases hc with
    | value _ hin hp => exact ⟨r, hp, rfl⟩
  | indexError =>
    rw [hr] at hc
    cases hc with
    | indexError hout => exact absurd hout h

/-- A legal command with its index out of range computes IndexError. -/
theorem executeOf_of_outOfRange (h : indexOutOfRange c i) : executeOf c i = .indexError := by
  have hc := computes_executeOf c i
  cases hr : executeOf c i with
  | value r =>
    rw [hr] at hc
    cases hc with
    | value _ hin hp => exact absurd h hin
  | indexError => rfl

/-- A word that completes leaves its result, and VALID 1. -/
theorem tcuAfterCommand_of_value (hd : decode v = .ok i) {r : Word} (hr : executeOf c i = .value r) (t : TcuState) :
    tcuAfterCommand c v t = { t with res := r, valid := true } := by
  simp [tcuAfterCommand, hd, hr]

/-- A word whose index is out of range takes the IndexError entry. -/
theorem tcuAfterCommand_of_outOfRange (hd : decode v = .ok i) (h : indexOutOfRange c i) (t : TcuState) :
    tcuAfterCommand c v t = t.indexErrorEntry := by
  simp [tcuAfterCommand, hd, executeOf_of_outOfRange h]

/-- A word that is not legal takes the IllegalCommand entry. -/
theorem tcuAfterCommand_of_not_legal (h : legal v = false) (t : TcuState) :
    tcuAfterCommand c v t = t.illegalCommandEntry := by
  obtain ⟨e, he⟩ := decode_error_of_not_legal h
  simp [tcuAfterCommand, he]

end CommandEndings

/-- A command that ends a second time in the same way changes nothing more. -/
theorem TcuState.finish_finish (t : TcuState) (r : ExecResult) : (t.finish r).finish r = t.finish r := by
  cases r <;> rfl

/-- A repeated command word leaves what its first writing left. -/
theorem tcuAfterCommand_idem (c : Config) (v : Word) (t : TcuState) :
    tcuAfterCommand c v (tcuAfterCommand c v t) = tcuAfterCommand c v t := by
  unfold tcuAfterCommand
  cases decode v with
  | ok i => exact TcuState.finish_finish t _
  | error e => rfl

/-- A repeated write to STS clears no more than the first. -/
theorem TcuState.stsWrite_stsWrite (t : TcuState) (v : Word) : (t.stsWrite v).stsWrite v = t.stsWrite v := by
  simp [TcuState.stsWrite]

/-! ### Repeating an access -/

/-- From every machine with this configuration and TCU state, the access `a` is answered with `r` and leaves the TCU
state `t'`. -/
def accessGives (c : Config) (a : Access) (t : TcuState) (r : BusResponse) (t' : TcuState) : Prop :=
  ∀ s : State, s.cfg = c → s.tcu = t → access a s = .next ((s.respond r).withTcu t')

section AccessGives
variable {c : Config} {a : Access} {t t' : TcuState} {r : BusResponse}

/-- An access that is only answered leaves the TCU state as it was. -/
theorem accessGives_of_quiet (h : ∀ s : State, s.tcu = t → access a s = .next (s.respond r)) :
    accessGives c a t r t := by
  rintro s - rfl
  exact h s rfl

/-- A command write is answered and runs its word. -/
theorem accessGives_cmd (v : Word) : accessGives c (cmdWrite v) t (.ok 0#32) (tcuAfterCommand c v t) := by
  rintro s rfl rfl
  exact command_eq v _

/-- A write to STS is answered and clears flags. -/
theorem accessGives_stsWrite (v : Word) :
    accessGives c { kind := .write, off := stsOff, n := 4, v := v } t (.ok 0#32) (t.stsWrite v) := by
  rintro s - rfl
  exact access_stsWrite s v

/-- The step of an access that is known to give `r` and `t'`. -/
theorem step_of_accessGives {s : State} {m : Nat} {rest : List BusEvent} (hp : s.pending = .access m a :: rest)
    (ho : mayAccess s m) (h : accessGives s.cfg a s.tcu r t') : step s = .next ((answered s m rest r).withTcu t') :=
  (step_access hp ho).trans (h _ rfl rfl)

end AccessGives

/-- An access made again gets the response and leaves the TCU state that it got and left the first time. -/
theorem accessGives_repeated (c : Config) (a : Access) (t : TcuState) :
    ∃ r t', accessGives c a t r t' ∧ accessGives c a t' r t' := by
  have quiet {r : BusResponse} (h : accessGives c a t r t) :
      ∃ r t', accessGives c a t r t' ∧ accessGives c a t' r t' := ⟨r, t, h, h⟩
  cases hb : a.isBusError with
  | true => exact quiet (accessGives_of_quiet fun s _ => access_busError s hb)
  | false =>
    cases Access.good_of_not_busError hb with
    | readReg off v ho => exact quiet (accessGives_of_quiet fun s ht => ht ▸ access_read s v ho)
    | resWrite v => exact quiet (accessGives_of_quiet fun s _ => access_resWrite s v)
    | cmd v =>
      have hagain : accessGives c (cmdWrite v) (tcuAfterCommand c v t) _ _ := accessGives_cmd v
      rw [tcuAfterCommand_idem] at hagain
      exact ⟨_, _, accessGives_cmd v, hagain⟩
    | stsWrite v =>
      have hagain : accessGives c _ (t.stsWrite v) _ _ := accessGives_stsWrite v
      rw [TcuState.stsWrite_stsWrite] at hagain
      exact ⟨_, _, accessGives_stsWrite v, hagain⟩

end Sys2Proof.Machine
end

section
/-! PROOFS. The statements about the bus and the register window (20_memory.md). -/

namespace Sys2Proof.Machine

open Sys2Proof.Safety

/-- Settles O31: the second access starts from the TCU state in which the first ended. -/
theorem accessesAreIdempotent : Obligations.AccessesAreIdempotent := by
  intro s t u m a rest hp hs ht
  obtain ⟨r, t', hfirst, hsecond⟩ := accessGives_repeated s.cfg a s.tcu
  cases hs.symm.trans (step_of_accessGives hp (mayAccess_of_step hs hp) hfirst)
  cases ht.symm.trans (step_of_accessGives rfl (.inr rfl) hsecond)
  exact ⟨rfl, r, rfl, rfl⟩

/-! ### A read straight after a command write -/

section ReadAfterCommand
variable {s : State} {m : Nat}

/-- A read straight after a command write answers the register as the command left it. -/
theorem readAfterCommand_register {off : BitVec 4} (hoff : off = cmdOff ∨ off = resOff ∨ off = stsOff)
    (ho : mayAccess s m) (v : Word) :
    readAfterCommand s m v off ((tcuAfterCommand s.cfg v s.tcu).readRegister off) := by
  intro rest hp
  have hcmd := (step_cmdWrite ho hp).trans (command_eq v _)
  exact ⟨_, (run_succ_of_next 1 hcmd).trans (run_succ_of_next 0 (step_read hoff (.inr rfl) rfl)), rfl⟩

/-- Reads of RES and of STS straight after a command write see RES and the flags as the command left them. -/
theorem reads_after_command {v : Word} {t : TcuState} (ho : mayAccess s m) (h : tcuAfterCommand s.cfg v s.tcu = t) :
    ∃ x, readAfterCommand s m v 0x4#4 t.res ∧ stsShows x t.valid t.idxerr t.illop ∧
      readAfterCommand s m v 0x8#4 x := by
  subst h
  exact ⟨_, readAfterCommand_register (.inr (.inl rfl)) ho v, TcuState.sts_getLsbD _,
    readAfterCommand_register (.inr (.inr rfl)) ho v⟩

end ReadAfterCommand

/-- Settles O32: the two reads, after each of the three endings of a command. -/
theorem readSeesThePrecedingCommand : Obligations.ReadSeesThePrecedingCommand := by
  intro s m v ho
  refine ⟨fun i hd hin => ?_, fun i hd hout => ?_, fun hl => ?_⟩
  · obtain ⟨r, -, hr⟩ := executeOf_of_inRange hin
    obtain ⟨x, hreads⟩ := reads_after_command ho (tcuAfterCommand_of_value hd hr s.tcu)
    exact ⟨r, x, exec_of_value hr, hreads⟩
  · exact reads_after_command ho (tcuAfterCommand_of_outOfRange hd hout s.tcu)
  · exact reads_after_command ho (tcuAfterCommand_of_not_legal hl s.tcu)

/-! ### Routing and issuing -/

section Routing
variable {c : Config} {addr : Word}

/-- An address is in the window exactly when it is one of the sixteen from TCU_BASE up; none of them wraps, since
TCU_BASE is a multiple of 16. -/
theorem inWindow_iff : inWindow c addr = true ↔
    c.tcuBase.toNat ≤ addr.toNat ∧ addr.toNat ≤ c.tcuBase.toNat + 15 := by
  have hbase := c.tcuBase_toNat
  have hwindow := c.window.isLt
  have haddr := addr.isLt
  simp only [inWindow, windowOffset, decide_eq_true_eq, BitVec.lt_def, BitVec.toNat_sub, BitVec.toNat_ofNat]
  omega

/-- The offset's low four bits are the address's, since TCU_BASE's are 0. -/
theorem windowOffset_setWidth : (windowOffset c addr).setWidth 4 = addr.extractLsb' 0 4 := by
  have hbase := c.tcuBase_toNat
  have hwindow := c.window.isLt
  apply BitVec.eq_of_toNat_eq
  simp only [windowOffset, BitVec.toNat_setWidth, BitVec.toNat_sub, BitVec.extractLsb'_toNat, Nat.shiftRight_zero]
  omega

/-- In the window, address bits 3:0 are the distance from TCU_BASE. -/
theorem extractLsb'_toNat_of_inWindow (h : inWindow c addr = true) :
    (addr.extractLsb' 0 4).toNat = addr.toNat - c.tcuBase.toNat := by
  have hbase := c.tcuBase_toNat
  obtain ⟨hlow, hhigh⟩ := inWindow_iff.mp h
  rw [BitVec.extractLsb'_toNat, Nat.shiftRight_zero]
  omega

/-- A request is routed exactly when its address is in the window. -/
theorem route_isSome (c : Config) (q : BusRequest) : (route c q).isSome = inWindow c q.addr := by
  cases h : inWindow c q.addr <;> simp [route, h]

/-- A routed request reaches the TCU as it is, at the offset in address bits 3:0. -/
theorem route_eq_some {q : BusRequest} {a : Access} (h : route c q = some a) :
    inWindow c q.addr = true ∧ a = { kind := q.kind, off := q.addr.extractLsb' 0 4, n := q.n, v := q.v } := by
  cases hw : inWindow c q.addr with
  | false => simp [route, hw] at h
  | true =>
    simp only [route, hw, if_true, Option.some.injEq, windowOffset_setWidth] at h
    exact ⟨rfl, h.symm⟩

/-- A 4-byte write to TCU_BASE is routed to CMD. -/
theorem route_write_tcuBase (c : Config) (v : Word) : route c (memWrite c.tcuBase 4 v) = some (cmdWrite v) := by
  simp [route, memWrite, inWindow, windowOffset, cmdWrite, cmdOff]

end Routing

/-- Settles O34. -/
theorem routingIsExactlyTheWindow : Obligations.RoutingIsExactlyTheWindow := by
  intro c q
  refine ⟨?_, ?_, fun a ha => ?_⟩
  · rw [c.tcuBase_toNat]
    exact Nat.mul_mod_right 16 _
  · rw [route_isSome]
    exact inWindow_iff
  · obtain ⟨hw, rfl⟩ := route_eq_some ha
    exact ⟨rfl, rfl, rfl, rfl, extractLsb'_toNat_of_inWindow hw⟩

/-- A write of `v` to TCU_BASE joins the queue as a command write. -/
theorem State.issue_write_tcuBase (s : State) (m : Nat) (v : Word) :
    s.issue m (memWrite s.cfg.tcuBase 4 v) = { s with pending := s.pending ++ [.access m (cmdWrite v)] } := by
  rw [State.issue, route_write_tcuBase]

/-- Settles O35: the write is routed to CMD, is alone in the queue, and its word decodes to the instruction. -/
theorem issuedCommandRuns : Obligations.IssuedCommandRuns := by
  intro s m i hidle ho
  rw [State.issue_write_tcuBase, hidle]
  exact (step_cmdWrite (s := { s with pending := [.access m (cmdWrite (encode i))] }) ho rfl).trans
    (command_of_decode_ok (decode_encode i) _)

/-- Settles O24. -/
theorem stepRunsTheDecodedInstruction : Obligations.StepRunsTheDecodedInstruction := by
  intro s m v rest hp ho
  rw [step_cmdWrite ho hp]
  exact ⟨fun i hd => command_of_decode_ok hd _, fun e hd => command_of_decode_error hd _⟩

/-! ### What the machine refuses -/

section Refusals
variable {s : State} {m : Nat} {a : Access} {rest : List BusEvent}

/-- An access of the one master is never refused. -/
theorem step_access_not_refused (hp : s.pending = .access m a :: rest) (ho : mayAccess s m) (r : Refusal) :
    step s ≠ .refused r := by
  obtain ⟨resp, t, hnext, -⟩ := access_next a ((s.take rest).own m)
  rw [step_access hp ho, hnext]
  exact nofun

/-- An access of another master than the one already seen is refused by name. -/
theorem step_secondBusMaster {m' : Nat} (hp : s.pending = .access m a :: rest) (ho : s.owner = some m')
    (hne : m' ≠ m) : step s = .refused .secondBusMaster := by
  rw [step_take hp]
  simp [takeEvent, State.ownedBy, ho, hne]

/-- An access that overlaps reset is refused by name. -/
theorem step_accessOverlapsReset (hp : s.pending = .accessOverlappingReset m a :: rest) :
    step s = .refused .accessOverlapsReset :=
  step_take hp

/-- A master that may not access is another than the one already seen. -/
theorem owner_of_not_mayAccess (h : ¬ mayAccess s m) : ∃ m', s.owner = some m' ∧ m' ≠ m := by
  cases ho : s.owner with
  | none => exact absurd (.inl ho) h
  | some m' => exact ⟨m', rfl, fun hm => h (.inr (hm ▸ ho))⟩

end Refusals

/-- Settles O45: of the four kinds of event, and of waiting, only two are refused. -/
theorem onlyTwoRefusals : Obligations.OnlyTwoRefusals := by
  intro s r
  constructor
  · intro h
    cases hp : s.pending with
    | nil => cases (step_idle hp).symm.trans h
    | cons e rest =>
      cases e with
      | reset => cases (step_take hp).symm.trans h
      | accessOverlappingReset m a =>
        cases (step_accessOverlapsReset hp).symm.trans h
        exact .inr ⟨rfl, m, a, rest, rfl⟩
      | access m a =>
        by_cases ho : mayAccess s m
        · exact absurd h (step_access_not_refused hp ho r)
        · obtain ⟨m', hm', hne⟩ := owner_of_not_mayAccess ho
          cases (step_secondBusMaster hp hm' hne).symm.trans h
          exact .inl ⟨rfl, m, m', a, rest, rfl, hm', hne⟩
  · rintro (⟨rfl, m, m', a, rest, hp, ho, hne⟩ | ⟨rfl, m, a, rest, hp⟩)
    · exact step_secondBusMaster hp ho hne
    · exact step_accessOverlapsReset hp

/-! ### Byte images -/

/-- Bit `j` of byte `k` is bit `8k + j` of the word (20_memory.md R35). -/
theorem byteOf_getLsbD (v : Word) (k : Nat) {j : Nat} (hj : j < 8) :
    (byteOf v k).getLsbD j = v.getLsbD (8 * k + j) := by
  simp [byteOf, hj]

/-- The four bytes of a word's image decode as the word does. -/
theorem decodeBytes_image {v : Word} {i : Instr} (h : decode v = .ok i) (rest : List Byte) :
    decodeBytes (byteOf v 0 :: byteOf v 1 :: byteOf v 2 :: byteOf v 3 :: rest) = .ok (i, rest) := by
  simp [decodeBytes, wordOfBytes_bytesOfWord, h]

/-- Settles O8. -/
theorem registerImagesAreLittleEndian : Obligations.RegisterImagesAreLittleEndian :=
  ⟨fun t off k _ _ hj => byteOf_getLsbD (t.readRegister off) k hj, fun _ _ rest h => decodeBytes_image h rest⟩

end Sys2Proof.Machine
end

section
/-! PROOFS. What a word says about itself: the word of an accepted instruction is that word (30_encoding.md R51, R55),
the legal words are those of the opcode map (R52), and an illegal word is refused for its opcode (R53) or for a bit its
format marks reserved (R54). -/

namespace Sys2Proof

open Sys2Proof.Machine

/-- Settles O1: each instruction's word lies in its own row, and each field reads back. -/
theorem decodeOfEncodeIsSame : Obligations.DecodeOfEncodeIsSame := decode_encode

/-- Settles O4: any two rows differ on a bit both masks keep. -/
theorem tableRowsDoNotOverlap : Obligations.TableRowsDoNotOverlap := opcodeTable_rows_exclude

/-! ### An accepted word is the word of its instruction -/

/-- A word whose bits above its lowest field are `p` is `p` with that field put back. -/
theorem or_extractLsb'_of_masked {v p m : Word} (n : Nat) (hm : ∀ k < 32, m.getLsbD k = decide (n ≤ k))
    (h : v &&& m = p) : p ||| (v.extractLsb' 0 n).setWidth 32 = v := by
  subst h
  apply BitVec.eq_of_getLsbD_eq
  intro k hk
  simp only [BitVec.getLsbD_or, BitVec.getLsbD_and, BitVec.getLsbD_setWidth, BitVec.getLsbD_extractLsb', hm k hk,
    Nat.zero_add]
  by_cases hkn : k < n
  · simp [hk, hkn, Nat.not_le.mpr hkn]
  · simp [hkn, Nat.not_lt.mp hkn]

/-- The band and the raw RSSI of a word are its lowest 24 bits (30_encoding.md R50). -/
theorem fieldBand_append_fieldH (v : Word) :
    (fieldBand v ++ fieldH v : BitVec (8 + 16)) = v.extractLsb' 0 (8 + 16) :=
  BitVec.extractLsb'_append_extractLsb'_eq_extractLsb' rfl

/-- Every row keeps the bits of its word: those under the mask in the match value, the others in the fields. -/
theorem encode_build_of_selects {r : Row} (hr : r ∈ opcodeTable) {v : Word} (h : r.selects v = true) :
    encode (r.build v) = v := by
  rw [Row.selects_iff] at h
  simp only [opcodeTable, List.mem_cons, List.not_mem_nil, or_false] at hr
  rcases hr with rfl | rfl | rfl | rfl | rfl | rfl | rfl | rfl | rfl | rfl
  · exact or_extractLsb'_of_masked 12 (by decide) h
  · exact or_extractLsb'_of_masked 8 (by decide) h
  · exact or_extractLsb'_of_masked 8 (by decide) h
  · exact or_extractLsb'_of_masked 8 (by decide) h
  · exact or_extractLsb'_of_masked 8 (by decide) h
  · exact or_extractLsb'_of_masked 16 (by decide) h
  · exact or_extractLsb'_of_masked 16 (by decide) h
  · have hword := or_extractLsb'_of_masked (8 + 16) (by decide) h
    rw [← fieldBand_append_fieldH, ← Laws.OwnRow.band_and_value, ← BitVec.or_assoc] at hword
    exact hword
  · exact or_extractLsb'_of_masked 16 (by decide) h
  · exact or_extractLsb'_of_masked 16 (by decide) h

/-- A word decodes to an instruction exactly when it is that instruction's word. -/
theorem decode_eq_ok_iff {v : Word} {i : Instr} : decode v = .ok i ↔ encode i = v := by
  constructor
  · intro h
    obtain ⟨r, hfind, rfl⟩ := (decode_ok_iff v i).mp h
    have hsel : r.selects v = true := List.find?_some (p := fun r : Row => r.selects v) hfind
    exact encode_build_of_selects (List.mem_of_find?_eq_some hfind) hsel
  · rintro rfl
    exact decode_encode i

/-- Settles O2: the row that selects a word keeps every bit of it. -/
theorem encodeOfDecodeIsSame : Obligations.EncodeOfDecodeIsSame := fun _ _ => decode_eq_ok_iff.mp

/-! ### Legal words -/

/-- A word is legal exactly when some row of the opcode map selects it. -/
theorem legal_iff {v : Word} : legal v = true ↔ ∃ r ∈ opcodeTable, r.selects v = true := List.any_eq_true

/-- A word is legal exactly when it decodes. -/
theorem exists_decode_iff_legal {v : Word} : (∃ i, decode v = .ok i) ↔ legal v = true :=
  ⟨fun ⟨_, hi⟩ => legal_of_decode_ok hi, decode_ok_of_legal⟩

/-- Settles O3: the rows written out are the match values and masks of the decoder's own table. -/
theorem legalWordsAreTheTableRows : Obligations.LegalWordsAreTheTableRows := by
  intro v
  refine ⟨?_, exists_decode_iff_legal⟩
  change _ ↔ ∃ row ∈ opcodeTable.map fun r => (r.pattern, r.mask), v &&& row.2 = row.1
  simp only [legal_iff, List.mem_map, exists_exists_and_eq_and, Row.selects_iff]

/-! ### The two reasons for an illegal word -/

/-- A word that is not legal is refused for its opcode if that is reserved, else for its reserved bits. -/
theorem decode_of_not_legal {v : Word} (h : legal v = false) :
    decode v = .error (if opReserved (fieldOp v) then .reservedOpcode else .reservedBits) := by
  have hnone : opcodeTable.find? (fun r => r.selects v) = none :=
    List.find?_eq_none.mpr (by simpa [legal] using h)
  cases hop : opReserved (fieldOp v) <;> simp [decode, hnone, hop]

/-- A field that a row's mask covers has the row's match value in every word the row selects. -/
theorem Row.field_of_selects {r : Row} {v : Word} (h : r.selects v = true) {lo n : Nat}
    (hm : r.mask.extractLsb' lo n = BitVec.allOnes n) : v.extractLsb' lo n = r.pattern.extractLsb' lo n := by
  rw [← (Row.selects_iff r v).mp h, BitVec.extractLsb'_and, hm, BitVec.and_allOnes]

/-- Every mask covers OP, and no row's OP is reserved. -/
theorem opcodeTable_op : ∀ r ∈ opcodeTable, r.mask.extractLsb' 28 4 = BitVec.allOnes 4 ∧
    opReserved (fieldOp r.pattern) = false := by decide

/-- The opcode of a word that a row selects is the row's. -/
theorem fieldOp_of_selects {r : Row} (hr : r ∈ opcodeTable) {v : Word} (h : r.selects v = true) :
    fieldOp v = fieldOp r.pattern :=
  Row.field_of_selects h (opcodeTable_op r hr).1

/-- A word with a reserved opcode is not legal. -/
theorem not_legal_of_opReserved {v : Word} (h : opReserved (fieldOp v) = true) : legal v = false := by
  rw [← Bool.not_eq_true, legal_iff]
  rintro ⟨r, hr, hsel⟩
  rw [fieldOp_of_selects hr hsel, (opcodeTable_op r hr).2] at h
  cases h

/-- A word with a reserved opcode is refused for it (30_encoding.md R53). -/
theorem decode_of_opReserved {v : Word} (h : opReserved (fieldOp v) = true) : decode v = .error .reservedOpcode := by
  rw [decode_of_not_legal (not_legal_of_opReserved h), if_pos h]

/-- Settles O5: no row of the opcode map has a reserved opcode. -/
theorem reservedOpcodesAreIllegal : Obligations.ReservedOpcodesAreIllegal := by
  intro v s hop
  have hres : opReserved (fieldOp v) = true := by
    have hall : ∀ op : BitVec 4, op = 0x0#4 ∨ 0xA#4 ≤ op → opReserved op = true := by decide
    exact hall _ hop
  exact ⟨decode_of_opReserved hres, command_of_decode_error (decode_of_opReserved hres) s⟩

/-- Bits `[lo+n-1:lo]` are reserved in every format of the defined opcode `op`: its rows demand zeros there
(30_encoding.md R45). -/
abbrev ReservedField (op : BitVec 4) (lo n : Nat) : Prop :=
  opReserved op = false ∧ ∀ r ∈ opcodeTable, fieldOp r.pattern = op →
    r.mask.extractLsb' lo n = BitVec.allOnes n ∧ r.pattern.extractLsb' lo n = 0#n

/-- A word with a 1 in a field its opcode reserves is refused for it (30_encoding.md R54). -/
theorem decode_of_reservedField {op : BitVec 4} {lo n : Nat} (hf : ReservedField op lo n) {v : Word}
    (hop : fieldOp v = op) (hbits : v.extractLsb' lo n ≠ 0#n) : decode v = .error .reservedBits := by
  subst hop
  obtain ⟨hdef, hrows⟩ := hf
  have hl : legal v = false := by
    rw [← Bool.not_eq_true, legal_iff]
    rintro ⟨r, hr, hsel⟩
    obtain ⟨hm, hp⟩ := hrows r hr (fieldOp_of_selects hr hsel).symm
    exact hbits ((Row.field_of_selects hsel hm).trans hp)
  rw [decode_of_not_legal hl, hdef]
  rfl

/-- Settles O6: the nine fields are reserved in the formats of their opcodes. -/
theorem reservedBitsAreIllegal : Obligations.ReservedBitsAreIllegal := by
  intro v s h
  have hd : decode v = .error .reservedBits := by
    rcases h with ⟨hop, hb⟩ | ⟨hop, hb⟩ | ⟨hop, hb⟩ | ⟨hop, hb⟩ | ⟨hop, hb⟩ | ⟨hop, hb⟩ | ⟨hop, hb⟩ | ⟨hop, hb⟩ |
      ⟨hop, hb⟩ <;> exact decode_of_reservedField (by decide) hop hb
  exact ⟨hd, command_of_decode_error hd s⟩

/-- Settles O7: ten words are those of their instructions; of the other two, one has opcode 0x0 and one bit 9, reserved
in the format of DCSW and DCSWN. -/
theorem specWordsDecode : Obligations.SpecWordsDecode :=
  ⟨decode_eq_ok_iff.mpr rfl, decode_eq_ok_iff.mpr rfl, decode_eq_ok_iff.mpr rfl, decode_eq_ok_iff.mpr rfl,
    decode_eq_ok_iff.mpr rfl, decode_eq_ok_iff.mpr rfl, decode_eq_ok_iff.mpr rfl, decode_eq_ok_iff.mpr rfl,
    decode_eq_ok_iff.mpr rfl, decode_eq_ok_iff.mpr rfl, decode_of_opReserved rfl,
    decode_of_reservedField (op := 0x3#4) (lo := 9) (n := 19) (by decide) rfl (by decide)⟩

end Sys2Proof
end

section
/-! PROOFS. What the ten operations read and leave alone (30_encoding.md R44). -/

namespace Sys2Proof.Machine

/-- VALID after a command, and RES when VALID is 1, are the same whatever the TCU state was before. -/
theorem tcuAfterCommand_reads_no_tcu (c : Config) (v : Word) (t u : TcuState) :
    (tcuAfterCommand c v t).valid = (tcuAfterCommand c v u).valid ∧
      ((tcuAfterCommand c v t).valid = true → (tcuAfterCommand c v t).res = (tcuAfterCommand c v u).res) := by
  unfold tcuAfterCommand
  cases decode v with
  | error e => exact ⟨rfl, nofun⟩
  | ok i =>
    dsimp only
    cases executeOf c i with
    | value r => exact ⟨rfl, fun _ => rfl⟩
    | indexError => exact ⟨rfl, nofun⟩

/-- Settles O22: both commands decode the same word and compute under the same configuration. -/
theorem commandsReadNoTcuState : Obligations.CommandsReadNoTcuState := by
  intro v s t s' t' hcfg hs ht
  cases (command_eq v s).symm.trans hs
  cases (command_eq v t).symm.trans ht
  rw [hcfg]
  exact tcuAfterCommand_reads_no_tcu t.cfg v s.tcu t.tcu

/-- Settles O23: a legal command ends with a result or in IndexError. -/
theorem commandFrame : Obligations.CommandFrame := by
  intro i s t h
  cases (exec_eq i s).symm.trans h
  rcases s.finish_cases (executeOf s.cfg i) with ⟨r, -, hfin⟩ | ⟨-, hfin⟩ <;> rw [hfin]
  · exact ⟨rfl, rfl, rfl, rfl, rfl, id, fun _ => rfl, nofun⟩
  · exact ⟨rfl, rfl, rfl, rfl, rfl, fun _ => rfl, nofun, fun _ => ⟨rfl, rfl⟩⟩

end Sys2Proof.Machine
end

section
/-! PROOFS. The assembler's lines (30_encoding.md R59): the word of each, and the refusal of an immediate outside its
range. -/

namespace Sys2Proof.Machine

section Lines
variable {c : Config} {l : AsmLine} {x lo hi : Int}

/-- `inRange` is the two comparisons. -/
theorem inRange_iff : inRange lo hi x = true ↔ lo ≤ x ∧ x ≤ hi := by
  simp [inRange]

/-- A line with a condition on its immediates assembles under it to its request, and is refused otherwise. -/
theorem assemble_eq_ite {P : Prop} [Decidable P] {q : BusRequest} (hwf : l.wellFormed = true ↔ P)
    (hq : P → lineRequest c l = q) : assemble c l = if P then some q else none := by
  by_cases h : P
  · rw [assemble, if_pos (hwf.mpr h), if_pos h, hq h]
  · rw [assemble, if_neg (mt hwf.mp h), if_neg h]

/-- An immediate that fits a field of `n` bits is the same number in that field and in the word. -/
theorem setWidth_ofInt {n : Nat} (hn : n ≤ 32) (h0 : 0 ≤ x) (hx : x < 2 ^ n) :
    (BitVec.ofInt n x).setWidth 32 = BitVec.ofInt 32 x := by
  obtain ⟨k, rfl⟩ := Int.eq_ofNat_of_zero_le h0
  have hk : k < 2 ^ n := by exact_mod_cast hx
  rw [BitVec.ofInt_natCast, BitVec.ofInt_natCast, BitVec.setWidth_ofNat_of_le_of_lt hn hk]

/-- The write to CMD of an operation's word, its immediate put into a field of `n` bits. -/
theorem assemble_field {n : Nat} (op : BitVec n → Instr) {w : Word} (hwf : l.wellFormed = inRange lo hi x)
    (hline : lineRequest c l = commandLine c (op (BitVec.ofInt n x)))
    (hword : lo ≤ x ∧ x ≤ hi → encode (op (BitVec.ofInt n x)) = w) :
    assemble c l = if lo ≤ x ∧ x ≤ hi then some (memWrite c.tcuBase 4 w) else none :=
  assemble_eq_ite (by rw [hwf, inRange_iff]) fun h => by rw [hline, commandLine, hword h]

/-- A line of one unsigned immediate of `n` bits at the bottom of the word: the immediate is ORed onto the row's match
value `p`. -/
theorem assemble_unsigned {n : Nat} (op : BitVec n → Instr) (p : Word)
    (henc : ∀ d, encode (op d) = p ||| d.setWidth 32) (hn : n ≤ 32) (hhi : hi < 2 ^ n)
    (hwf : l.wellFormed = inRange 0 hi x)
    (hline : lineRequest c l = commandLine c (op (BitVec.ofInt n x))) :
    assemble c l = if 0 ≤ x ∧ x ≤ hi then some (memWrite c.tcuBase 4 (p ||| BitVec.ofInt 32 x)) else none :=
  assemble_field op hwf hline fun h => by rw [henc, setWidth_ofInt hn h.1 (Int.lt_of_le_of_lt h.2 hhi)]

/-- The two immediates of RSSIDBM have a range each, and each stands in its field. -/
theorem assemble_rssidbm (c : Config) (b r : Int) : assemble c (.rssidbm b r) =
    if (0 ≤ b ∧ b ≤ 0xFF) ∧ 0 ≤ r ∧ r ≤ 0xFFFF then
      some (memWrite c.tcuBase 4 (0x70000000#32 ||| (BitVec.ofInt 32 b <<< 16) ||| BitVec.ofInt 32 r)) else none := by
  refine assemble_eq_ite ?_ ?_
  · rw [AsmLine.wellFormed, Bool.and_eq_true, inRange_iff, inRange_iff]
  · rintro ⟨⟨hb0, hb⟩, hr0, hr⟩
    rw [lineRequest, commandLine, encode, setWidth_ofInt (by decide) hb0 (by omega),
      setWidth_ofInt (by decide) hr0 (by omega)]

end Lines

/-- Settles O9: seven lines of one unsigned immediate, RSSIDBM, the two lines of a dBm immediate, which wraps into its
16-bit field, the four raw accesses and the three pseudo-instructions. -/
theorem assemblerLines : Obligations.AssemblerLines := by
  intro c x y cmd
  refine ⟨?golay, ?dcscode, ?dcsw, ?dcswn, ?ctfreq, ?ctcw, ?tgscale, assemble_rssidbm c x y, ?slevel, ?plusdb, ?cmdW,
    rfl, rfl, ?stsW, rfl, rfl, rfl⟩
  case golay => exact assemble_unsigned .golay _ (fun _ => rfl) (by decide) (by decide) rfl rfl
  case dcscode => exact assemble_unsigned .dcscode _ (fun _ => rfl) (by decide) (by decide) rfl rfl
  case dcsw => exact assemble_unsigned .dcsw _ (fun _ => rfl) (by decide) (by decide) rfl rfl
  case dcswn => exact assemble_unsigned .dcswn _ (fun _ => rfl) (by decide) (by decide) rfl rfl
  case ctfreq => exact assemble_unsigned .ctfreq _ (fun _ => rfl) (by decide) (by decide) rfl rfl
  case ctcw => exact assemble_unsigned .ctcw _ (fun _ => rfl) (by decide) (by decide) rfl rfl
  case tgscale => exact assemble_unsigned .tgscale _ (fun _ => rfl) (by decide) (by decide) rfl rfl
  case slevel => exact assemble_field .slevel rfl rfl fun _ => rfl
  case plusdb => exact assemble_field .plusdb rfl rfl fun _ => rfl
  case cmdW => exact assemble_eq_ite inRange_iff fun _ => rfl
  case stsW => exact assemble_eq_ite inRange_iff fun _ => rfl

end Sys2Proof.Machine
end

section
/-! PROOFS. The Golay encoder and the DCS operations rule by rule (40_fec.md R60, R63 to R66): the words that run them,
and what each leaves in RES. -/

namespace Sys2Proof.Machine

open Sys2Proof.Safety

/-! ### The words that run an operation -/

section WordFields
variable {v p : Word} {lo n m : Nat}

/-- Two words with the same field agree on every bit of it. -/
theorem getLsbD_of_extractLsb'_eq (h : v.extractLsb' lo n = p.extractLsb' lo n) {j : Nat} (hj : lo ≤ j)
    (hjn : j < lo + n) : v.getLsbD j = p.getLsbD j := by
  have hbit := congrArg (fun x => x.getLsbD (j - lo)) h
  simpa [show j - lo < n by omega, show lo + (j - lo) = j by omega] using hbit

/-- A word whose OP and whose bits from `n` up to OP are row `k`'s runs that row's operation, if its lowest `n` bits
are the ones the row leaves free. -/
theorem command_of_row_fields (k : Nat) (hk : k < opcodeTable.length)
    (hmask : ∀ j < 32, opcodeTable[k].mask.getLsbD j = decide (n ≤ j))
    (hpattern : opcodeTable[k].pattern &&& opcodeTable[k].mask = opcodeTable[k].pattern)
    (hop : v.extractLsb' 28 4 = opcodeTable[k].pattern.extractLsb' 28 4) (hnm : n + m = 28)
    (hmid : v.extractLsb' n m = opcodeTable[k].pattern.extractLsb' n m) (s : State) :
    command v s = exec (opcodeTable[k].build v) s := by
  refine command_of_decode_ok (decode_of_row k hk ?_) s
  rw [← hpattern]
  apply BitVec.eq_of_getLsbD_eq
  intro j hj
  rw [BitVec.getLsbD_and, BitVec.getLsbD_and]
  by_cases hjn : n ≤ j
  · by_cases hj28 : j < 28
    · rw [getLsbD_of_extractLsb'_eq hmid hjn (by omega)]
    · rw [getLsbD_of_extractLsb'_eq hop (by omega) (by omega)]
  · simp [hmask j hj, hjn]

/-- Bits 27:8 of a word from its bit 8 and its bits 27:9, the split of the format of opcode 3 (30_encoding.md R48). -/
theorem extractLsb'_eight_of_nine {b : BitVec 1} (h8 : v.extractLsb' 8 1 = b) (h9 : v.extractLsb' 9 19 = 0#19) :
    v.extractLsb' 8 20 = (0#19 ++ b : BitVec (19 + 1)) := by
  rw [← h8, ← h9]
  exact (BitVec.extractLsb'_append_extractLsb'_eq_extractLsb' (len₁ := 1) (len₂ := 19) rfl).symm

end WordFields

/-! ### Results and index errors -/

/-- A command whose index is out of range ends in IndexError. -/
theorem exec_of_outOfRange {i : Instr} {s : State} (h : indexOutOfRange s.cfg i) :
    exec i s = .next (afterIndexError s) := by
  rw [exec_eq, executeOf_of_outOfRange h]
  rfl

/-- GOLAY leaves the code word of its data. -/
theorem exec_golay (d : BitVec 12) (s : State) :
    exec (.golay d) s = .next (afterResult s ((golayEncode d).setWidth 32)) :=
  exec_of_value rfl

section LegalIndex
variable {i : BitVec 8} {s : State} (h : i.toNat < nDcs)

/-- DCSCODE leaves the table entry. -/
theorem exec_dcscode : exec (.dcscode i) s = .next (afterResult s ((s.cfg.dcsTable[i.toNat]).setWidth 32)) :=
  exec_of_value (lookup_of_lt h)

/-- DCSW leaves the code word of the table entry. -/
theorem exec_dcsw : exec (.dcsw i) s = .next (afterResult s ((dcsCodeword s.cfg.dcsTable[i.toNat]).setWidth 32)) :=
  exec_of_value (lookup_of_lt (use := fun e => placeUnsigned (dcsCodeword e)) h)

/-- DCSWN leaves what DCSW does, with the 23 bits of the code word inverted. -/
theorem exec_dcswn : exec (.dcswn i) s =
    .next (afterResult s ((dcsCodeword s.cfg.dcsTable[i.toNat]).setWidth 32 ^^^ 0x007FFFFF#32)) := by
  have hvalue : executeOf s.cfg (.dcswn i) =
      .value ((dcsCodeword s.cfg.dcsTable[i.toNat] ^^^ dcsInvMask).setWidth 32) :=
    lookup_of_lt (use := fun e => placeUnsigned (dcsCodeword e ^^^ dcsInvMask)) h
  rw [BitVec.setWidth_xor] at hvalue
  exact exec_of_value hvalue

end LegalIndex

/-! ### The rules of the DCS operations -/

/-- Settles O11: the entry, its index's bound, and the reserved bits 27:8 of opcode 2. -/
theorem dcscodeRule : Obligations.DcscodeRule := by
  refine ⟨fun i s h => exec_dcscode h, fun i s h => exec_of_outOfRange h,
    fun v s hop => ⟨fun hres => ?_, fun hres => ?_⟩⟩
  · exact command_of_row_fields 1 (by decide) (n := 8) (by decide) (by decide) hop rfl hres s
  · exact (reservedBitsAreIllegal v s (.inr (.inl ⟨hop, hres⟩))).2

/-- Settles O12: the code word of the framed entry, its index's bound, and the reserved bits 27:9 of opcode 3 with
bit 8 = 0. -/
theorem dcswRule : Obligations.DcswRule := by
  refine ⟨fun i s h => ⟨exec_dcsw h, (exec_dcsw h).trans (exec_golay _ s).symm⟩, fun i s h => exec_of_outOfRange h,
    fun v s hop hn => ⟨fun hres => ?_, fun hres => ?_⟩⟩
  · exact command_of_row_fields 2 (by decide) (n := 8) (by decide) (by decide) hop rfl
      (extractLsb'_eight_of_nine hn hres) s
  · exact (reservedBitsAreIllegal v s (.inr (.inr (.inl ⟨hop, hres⟩)))).2

/-- Settles O13: the inverted code word, its index's bound, and the reserved bits 27:9 of opcode 3 with bit 8 = 1. -/
theorem dcswnRule : Obligations.DcswnRule := by
  refine ⟨fun i s h => exec_dcswn h, fun i s h => exec_of_outOfRange h,
    fun v s hop hn => ⟨fun hres => ?_, fun hres => ?_⟩⟩
  · exact command_of_row_fields 3 (by decide) (n := 8) (by decide) (by decide) hop rfl
      (extractLsb'_eight_of_nine hn hres) s
  · exact (reservedBitsAreIllegal v s (.inr (.inr (.inl ⟨hop, hres⟩)))).2

/-- Settles O52: the two results differ by the inversion mask alone. -/
theorem dcsPairIsComplementary : Obligations.DcsPairIsComplementary := by
  intro i s h
  have hxor (x : Word) : x ^^^ (x ^^^ 0x007FFFFF#32) = 0x007FFFFF#32 := by
    rw [← BitVec.xor_assoc, BitVec.xor_self, BitVec.zero_xor]
  refine ⟨_, _, exec_dcsw h, exec_dcswn h, fun heq => ?_, hxor _⟩
  have hzero := BitVec.xor_eq_zero_iff.mpr heq
  rw [hxor] at hzero
  exact absurd hzero (by decide)

/-! ### The rule of GOLAY -/

/-- A sequence that follows the iteration is the iteration. -/
theorem golayIterate_of_follows {n m : Nat} {w : Nat → BitVec n} (hw : ∀ k < m, w (k + 1) = golayStep (w k))
    {j k : Nat} (hjk : j + k ≤ m) : golayIterate k (w j) = w (j + k) := by
  induction k generalizing j with
  | zero => rfl
  | succ k ih =>
    rw [golayIterate, ← hw j (by omega), ih (by omega)]
    congr 1
    omega

/-- The parity field of the running value, moved up by 11, is bits 22:12. -/
theorem getLsbD_golayParMask_sub :
    ∀ k < 32, (golayParMask 24).getLsbD (k - 11) = decide (12 ≤ k ∧ k < 23) := by decide

/-- The bits of a code word: the data, and at 22:12 the parity field of the last running value. -/
theorem getLsbD_golayEncode (d : BitVec 12) {k : Nat} (hk : k < 32) : (golayEncode d).getLsbD k =
    (d.getLsbD k || (golayIterate 12 (d.setWidth 24)).getLsbD (k - 11) && decide (12 ≤ k ∧ k < 23)) := by
  simp only [golayEncode, golayParityBits, golayIter, golayParShift, BitVec.getLsbD_or, BitVec.getLsbD_shiftLeft,
    BitVec.getLsbD_setWidth, BitVec.getLsbD_and, getLsbD_golayParMask_sub k hk]
  by_cases hparity : 12 ≤ k ∧ k < 23
  · simp [hparity, show ¬ k < 11 by omega, show k - 11 < 12 by omega, show k - 11 < 23 by omega]
  · rw [decide_eq_false hparity]
    by_cases hk23 : k < 23
    · simp [hk23]
    · simp [hk23, BitVec.getLsbD_of_ge d k (by omega)]

/-- The code word in RES is the data with the parity field of the last running value moved up by 11. -/
theorem golayEncode_setWidth (d : BitVec 12) : (golayEncode d).setWidth 32 =
    d.setWidth 32 ||| ((golayIterate 12 (d.setWidth 24) &&& golayParMask 24).setWidth 32 <<< 11) := by
  apply BitVec.eq_of_getLsbD_eq
  intro k hk
  simp only [BitVec.getLsbD_setWidth, BitVec.getLsbD_or, BitVec.getLsbD_shiftLeft, BitVec.getLsbD_and,
    getLsbD_golayEncode d hk, getLsbD_golayParMask_sub k hk]
  by_cases hparity : 12 ≤ k ∧ k < 23
  · simp [hk, hparity, show ¬ k < 11 by omega, show k - 11 < 32 by omega]
  · simp [hk, hparity]

/-- Settles O10: the sequence is the encoder's own iteration; bits 27:12 of opcode 1 are reserved. -/
theorem golayRule : Obligations.GolayRule := by
  refine ⟨fun w d s h0 hw => ?_, fun v s hop => ⟨fun hres => ?_, fun hres => ?_⟩⟩
  · rw [exec_golay, golayEncode_setWidth, ← h0, golayIterate_of_follows (w := w) (j := 0) hw (Nat.le_refl 12)]
    rfl
  · exact command_of_row_fields 0 (by decide) (n := 12) (by decide) (by decide) hop rfl hres s
  · exact (reservedBitsAreIllegal v s (.inl ⟨hop, hres⟩)).2

end Sys2Proof.Machine
end

section
/-! PROOFS. Maps of words that respect XOR, and the number of ones in a word: what the properties of the Golay code
(40_fec.md R62) are proved with. -/

namespace Sys2Proof.Machine

open Sys2Proof.Safety

/-! ### Linear maps -/

/-- A map of words is linear over GF(2). -/
def IsLinear {n m : Nat} (f : BitVec n → BitVec m) : Prop := ∀ a b, f (a ^^^ b) = f a ^^^ f b

section Linear
variable {n m l : Nat} {f g : BitVec n → BitVec m}

theorem IsLinear.comp {f' : BitVec m → BitVec l} (hf' : IsLinear f') (hf : IsLinear f) :
    IsLinear fun x => f' (f x) :=
  fun a b => (congrArg f' (hf a b)).trans (hf' (f a) (f b))

theorem IsLinear.xor (hf : IsLinear f) (hg : IsLinear g) : IsLinear fun x => f x ^^^ g x := by
  intro a b
  dsimp only
  rw [hf, hg]
  ac_rfl

theorem IsLinear.append {g' : BitVec n → BitVec l} (hf : IsLinear f) (hg' : IsLinear g') :
    IsLinear fun x => f x ++ g' x := by
  intro a b
  dsimp only
  rw [hf, hg', BitVec.xor_append]

theorem isLinear_id : IsLinear fun x : BitVec n => x := fun _ _ => rfl

theorem isLinear_setWidth : IsLinear fun x : BitVec n => x.setWidth m := fun _ _ => BitVec.setWidth_xor

theorem isLinear_extractLsb' (lo : Nat) : IsLinear fun x : BitVec n => x.extractLsb' lo m :=
  fun _ _ => BitVec.extractLsb'_xor

theorem isLinear_shiftLeft (k : Nat) : IsLinear fun x : BitVec n => x <<< k :=
  fun a b => BitVec.shiftLeft_xor_distrib a b k

/-- Choosing a word by a bit of the argument. -/
theorem isLinear_ite_getLsbD (k : Nat) (c : BitVec m) :
    IsLinear fun x : BitVec n => if x.getLsbD k then c else 0#m := by
  intro a b
  dsimp only
  rw [BitVec.getLsbD_xor]
  cases a.getLsbD k <;> cases b.getLsbD k <;> simp

theorem isLinear_zero : IsLinear fun _ : BitVec n => 0#m := fun _ _ => BitVec.xor_self.symm

/-- Adding up the words that the argument's bits choose, from a linear start. -/
theorem IsLinear.foldl_ite (hf : IsLinear f) (c : Nat → BitVec m) (l : List Nat) :
    IsLinear fun x => l.foldl (fun acc k => if x.getLsbD k then acc ^^^ c k else acc) (f x) := by
  induction l generalizing f with
  | nil => exact hf
  | cons k l ih =>
    have hstep : (fun x => if x.getLsbD k then f x ^^^ c k else f x) =
        fun x => f x ^^^ if x.getLsbD k then c k else 0#m := by
      funext x
      cases x.getLsbD k <;> simp
    exact ih (hstep ▸ hf.xor (isLinear_ite_getLsbD k (c k)))

theorem IsLinear.map_zero (hf : IsLinear f) : f 0#n = 0#m := by
  have h := hf 0#n 0#n
  rwa [BitVec.xor_self, BitVec.xor_self] at h

/-- A single 1 keeps its place in a word one bit longer. -/
theorem twoPow_setWidth_succ {k : Nat} (hk : k < n) :
    (BitVec.twoPow n k).setWidth (n + 1) = BitVec.twoPow (n + 1) k := by
  apply BitVec.eq_of_getLsbD_eq
  intro j hj
  rw [BitVec.getLsbD_setWidth, BitVec.getLsbD_twoPow, BitVec.getLsbD_twoPow]
  simp [hj, hk, Nat.lt_succ_of_lt hk]

/-- A word is the word of its lower bits, with its top bit put back. -/
theorem eq_setWidth_xor_top (x : BitVec (n + 1)) :
    x = (x.setWidth n).setWidth (n + 1) ^^^ if x.msb then BitVec.twoPow (n + 1) n else 0#(n + 1) := by
  apply BitVec.eq_of_getLsbD_eq
  intro j hj
  have htop : (if x.msb then BitVec.twoPow (n + 1) n else 0#(n + 1)).getLsbD j = (x.msb && decide (n = j)) := by
    cases x.msb <;> simp [BitVec.getLsbD_twoPow]
  rw [BitVec.getLsbD_xor, htop, BitVec.getLsbD_setWidth, BitVec.getLsbD_setWidth]
  rcases Nat.lt_succ_iff_lt_or_eq.mp hj with hlow | rfl
  · simp [hj, hlow, Nat.ne_of_gt hlow]
  · simp [BitVec.msb_eq_getLsbD_last]

/-- A linear map takes a word to its value at the lower bits, with its value at the top bit added where that is 1. -/
theorem IsLinear.map_succ {f : BitVec (n + 1) → BitVec m} (hf : IsLinear f) (x : BitVec (n + 1)) :
    f x = f ((x.setWidth n).setWidth (n + 1)) ^^^ if x.msb then f (BitVec.twoPow (n + 1) n) else 0#m := by
  conv => lhs; rw [eq_setWidth_xor_top x]
  rw [hf]
  cases x.msb with
  | false => exact congrArg (_ ^^^ ·) hf.map_zero
  | true => rfl

/-- Linear maps that agree on the words with a single 1 agree. -/
theorem IsLinear.eq_of_twoPow (hf : IsLinear f) (hg : IsLinear g)
    (h : ∀ k < n, f (BitVec.twoPow n k) = g (BitVec.twoPow n k)) (x : BitVec n) : f x = g x := by
  induction n with
  | zero => rw [BitVec.of_length_zero (x := x), hf.map_zero, hg.map_zero]
  | succ n ih =>
    have hlow := ih (hf.comp isLinear_setWidth) (hg.comp isLinear_setWidth) (fun k hk => ?_) (x.setWidth n)
    · rw [hf.map_succ, hg.map_succ, hlow, h n (Nat.lt_succ_self n)]
    · rw [twoPow_setWidth_succ hk]
      exact h k (Nat.lt_succ_of_lt hk)

end Linear

/-- Words that two XORs make equal differ by the XOR of the two. -/
theorem xor_eq_of_xor_eq {n : Nat} {a b x y : BitVec n} (h : a ^^^ x = b ^^^ y) : a ^^^ b = x ^^^ y := by
  have ha : a = b ^^^ y ^^^ x := by rw [← h, BitVec.xor_assoc, BitVec.xor_self, BitVec.xor_zero]
  rw [ha, BitVec.xor_comm _ b, ← BitVec.xor_assoc, ← BitVec.xor_assoc, BitVec.xor_self, BitVec.zero_xor,
    BitVec.xor_comm]

/-! ### The number of ones -/

section Weight
variable {n m : Nat}

/-- The number of ones is the library's population count. -/
theorem weight_eq_toNat_cpop (x : BitVec n) : weight x = x.cpop.toNat := by
  rw [BitVec.toNat_cpop]
  suffices hlow : ∀ k, ((List.range k).filter fun j => x.getLsbD j).length = x.cpopNatRec k 0 from hlow n
  intro k
  induction k with
  | zero => rfl
  | succ k ih =>
    rw [List.range_succ, List.filter_append, List.length_append, ih, BitVec.cpopNatRec_succ, BitVec.cpopNatRec_add]
    cases hbit : x.getLsbD k <;> simp [hbit]

theorem weight_append (x : BitVec n) (y : BitVec m) : weight (x ++ y) = weight x + weight y := by
  rw [weight_eq_toNat_cpop, weight_eq_toNat_cpop, weight_eq_toNat_cpop, BitVec.toNat_cpop_append]

theorem weight_setWidth (h : n ≤ m) (x : BitVec n) : weight (x.setWidth m) = weight x := by
  rw [weight_eq_toNat_cpop, weight_eq_toNat_cpop, BitVec.toNat_cpop_setWidth_eq_of_le h]

theorem weight_le_width (x : BitVec n) : weight x ≤ n := by
  rw [weight_eq_toNat_cpop]
  exact BitVec.toNat_cpop_le x

theorem weight_zero : weight 0#n = 0 := by simp [weight]

/-- The ones of a word are its top bit and those below it. -/
theorem weight_succ (x : BitVec (n + 1)) : weight x = x.msb.toNat + weight (x.setWidth n) := by
  rw [weight_eq_toNat_cpop, weight_eq_toNat_cpop, ← BitVec.toNat_cpop_cons, BitVec.cons_msb_setWidth]

/-- Each 1 of an XOR is a 1 of one of the two words. -/
theorem weight_xor_le (x y : BitVec n) : weight (x ^^^ y) ≤ weight x + weight y := by
  induction n with
  | zero => exact (weight_le_width _).trans (Nat.zero_le _)
  | succ n ih =>
    have hlow := ih (x.setWidth n) (y.setWidth n)
    have htop : (x.msb ^^ y.msb).toNat ≤ x.msb.toNat + y.msb.toNat := by
      cases x.msb <;> cases y.msb <;> decide
    rw [weight_succ, weight_succ x, weight_succ y, BitVec.msb_xor, BitVec.setWidth_xor]
    omega

/-- The words of `n` bits with at most `k` ones, by their top bit. -/
def lightWords : (k n : Nat) → List (BitVec n)
  | _, 0 => [0#0]
  | 0, n + 1 => (lightWords 0 n).map (BitVec.cons false)
  | k + 1, n + 1 => (lightWords (k + 1) n).map (BitVec.cons false) ++ (lightWords k n).map (BitVec.cons true)

theorem cons_false_mem_lightWords {k : Nat} {x : BitVec n} (h : x ∈ lightWords k n) :
    BitVec.cons false x ∈ lightWords k (n + 1) := by
  cases k with
  | zero => exact List.mem_map_of_mem h
  | succ k => exact List.mem_append_left _ (List.mem_map_of_mem h)

theorem cons_true_mem_lightWords {k : Nat} {x : BitVec n} (h : x ∈ lightWords k n) :
    BitVec.cons true x ∈ lightWords (k + 1) (n + 1) :=
  List.mem_append_right _ (List.mem_map_of_mem h)

/-- Every word with at most `k` ones is listed. -/
theorem mem_lightWords {k : Nat} {x : BitVec n} (h : weight x ≤ k) : x ∈ lightWords k n := by
  induction n generalizing k with
  | zero => simp [lightWords, BitVec.eq_nil x]
  | succ n ih =>
    rw [weight_succ] at h
    rw [← BitVec.cons_msb_setWidth x]
    cases htop : x.msb with
    | false => exact cons_false_mem_lightWords (ih (by omega))
    | true =>
      rw [htop, Bool.toNat_true] at h
      obtain ⟨k, rfl⟩ : ∃ k', k = k' + 1 := ⟨k - 1, by omega⟩
      exact cons_true_mem_lightWords (ih (by omega))

end Weight

end Sys2Proof.Machine
end

section
/-! PROOFS. The properties of the Golay code (40_fec.md R61, R62): the encoder is linear, its parity bits are the
remainder of a division, the code is cyclic, and its least weight is 7. -/

namespace Sys2Proof.Machine

open Sys2Proof.Safety

/-! ### The iteration -/

/-- The iteration's XOR is with the polynomial or with 0. -/
theorem golayStep_eq {n : Nat} (w : BitVec n) :
    golayStep w = w <<< 1 ^^^ if (w <<< 1).getLsbD 12 then golayPoly n else 0#n := by
  cases hbit : (w <<< 1).getLsbD 12 <;> simp [golayStep, golayTestBit, hbit]

theorem isLinear_golayStep (n : Nat) : IsLinear (golayStep (n := n)) := by
  have h : IsLinear fun w : BitVec n => w <<< 1 ^^^ if (w <<< 1).getLsbD 12 then golayPoly n else 0#n :=
    (isLinear_shiftLeft 1).xor ((isLinear_ite_getLsbD 12 _).comp (isLinear_shiftLeft 1))
  exact (funext golayStep_eq : golayStep = _) ▸ h

theorem isLinear_golayIterate (n k : Nat) : IsLinear (golayIterate (n := n) k) := by
  induction k with
  | zero => exact isLinear_id
  | succ k ih => exact ih.comp (isLinear_golayStep n)

/-! ### The width of the running value -/

/-- A step of a wide running value does to its lowest 13 bits what a step of them alone does. -/
theorem golayStep_setWidth {n : Nat} (hn : 13 ≤ n) (w : BitVec n) :
    (golayStep w).setWidth 13 = golayStep (w.setWidth 13) := by
  have hshift : (w <<< 1).setWidth 13 = w.setWidth 13 <<< 1 := BitVec.setWidth_shiftLeft_of_le hn
  have htest : (w.setWidth 13 <<< 1).getLsbD 12 = (w <<< 1).getLsbD 12 := by
    rw [← hshift, BitVec.getLsbD_setWidth, decide_eq_true (by decide), Bool.true_and]
  rw [golayStep_eq, golayStep_eq, BitVec.setWidth_xor, hshift, htest]
  cases (w <<< 1).getLsbD 12 with
  | false => exact congrArg (_ ^^^ ·) (BitVec.setWidth_zero 13 n)
  | true => exact congrArg (_ ^^^ ·) (BitVec.setWidth_ofNat_of_le hn _)

theorem golayIterate_setWidth {n : Nat} (hn : 13 ≤ n) (k : Nat) (w : BitVec n) :
    (golayIterate k w).setWidth 13 = golayIterate k (w.setWidth 13) := by
  induction k generalizing w with
  | zero => rfl
  | succ k ih => rw [golayIterate, golayIterate, ih, golayStep_setWidth hn]

/-- The parity bits are those of a 13-bit running value. -/
theorem golayParityBits_eq_thirteen {n : Nat} (hn : 13 ≤ n) (d : BitVec 12) :
    golayParityBits n d = golayParityBits 13 d := by
  rw [golayParityBits, ← BitVec.setWidth_setWidth_of_le _ (by decide : 12 ≤ 13), BitVec.setWidth_and,
    golayIterate_setWidth hn, BitVec.setWidth_setWidth_of_le d hn, golayParMask, BitVec.setWidth_ofNat_of_le hn]
  rfl

/-- Settles O51: both widths give the parity bits of a 13-bit running value. -/
theorem golayWidthDoesNotMatter : Obligations.GolayWidthDoesNotMatter := fun _ d hn =>
  (golayParityBits_eq_thirteen hn d).trans (golayParityBits_eq_thirteen (by decide) d).symm

/-! ### The code word -/

/-- The eleven parity bits of a data word. -/
def golayParity (d : BitVec 12) : BitVec 11 := (golayIterate 12 (d.setWidth 24)).extractLsb' 1 11

/-- The code word is the parity bits above the data. -/
theorem golayEncode_eq_append (d : BitVec 12) : golayEncode d = (golayParity d ++ d : BitVec (11 + 12)) := by
  apply BitVec.eq_of_getLsbD_eq
  intro k hk
  rw [getLsbD_golayEncode d (by omega), BitVec.getLsbD_append, golayParity, BitVec.getLsbD_extractLsb']
  by_cases hk12 : k < 12
  · simp [hk12]
  · simp [hk12, hk, show 1 + (k - 12) = k - 11 by omega, show 12 ≤ k by omega, show k - 12 < 11 by omega]

theorem isLinear_golayParity : IsLinear golayParity :=
  (isLinear_extractLsb' 1).comp ((isLinear_golayIterate 24 12).comp isLinear_setWidth)

theorem isLinear_golayEncode : IsLinear golayEncode :=
  (funext golayEncode_eq_append : golayEncode = _) ▸ isLinear_golayParity.append isLinear_id

/-- Settles O47: the encoder is linear, and so is its placement in RES. -/
theorem golayIsLinear : Obligations.GolayIsLinear := by
  intro a b s
  refine ⟨_, _, exec_golay a s, exec_golay b s, ?_⟩
  rw [exec_golay, isLinear_golayEncode, BitVec.setWidth_xor]

/-! ### The remainder -/

/-- The quotient of `d(x)·x^11` by g(x): the bits that the iteration tested, which it leaves above its parity field. -/
def golayQuotient (d : BitVec 12) : BitVec 12 := (golayIterate 12 (d.setWidth 24)).extractLsb' 12 12

theorem isLinear_golayQuotient : IsLinear golayQuotient :=
  (isLinear_extractLsb' 12).comp ((isLinear_golayIterate 24 12).comp isLinear_setWidth)

theorem isLinear_generatorTimes : IsLinear generatorTimes :=
  (isLinear_zero (m := 23)).foldl_ite (fun k => 0xC75#23 <<< k) (List.range 12)

/-- Dividing `d(x)·x^11` by g(x) leaves the parity bits (40_fec.md R62 item 1). -/
theorem shift_xor_golayParity (d : BitVec 12) :
    (d.setWidth 23 <<< 11) ^^^ (golayParity d).setWidth 23 = generatorTimes (golayQuotient d) :=
  (((isLinear_shiftLeft 11).comp isLinear_setWidth).xor (isLinear_setWidth.comp isLinear_golayParity)).eq_of_twoPow
    (isLinear_generatorTimes.comp isLinear_golayQuotient) (by decide +kernel) d

/-- Settles O48: the fields of the code word, and the division. -/
theorem golayParityIsTheRemainder : Obligations.GolayParityIsTheRemainder := by
  intro d s
  have hfield (lo n : Nat) (h : lo + n ≤ 32) : ((golayEncode d).setWidth 32).extractLsb' lo n =
      (golayParity d ++ d : BitVec (11 + 12)).extractLsb' lo n := by
    rw [BitVec.extractLsb'_setWidth_of_le h, golayEncode_eq_append]
  refine ⟨_, golayQuotient d, exec_golay d s, ?data, ?zeros, ?parity⟩
  case data => rw [hfield 0 12 (by decide), BitVec.extractLsb'_append_eq_right]
  case zeros =>
    rw [hfield 23 9 (by decide)]
    apply BitVec.eq_of_getLsbD_eq
    intro k hk
    rw [BitVec.getLsbD_extractLsb', BitVec.getLsbD_of_ge _ _ (by omega), Bool.and_false, BitVec.getLsbD_zero]
  case parity =>
    rw [hfield 12 11 (by decide), BitVec.extractLsb'_append_eq_left]
    exact shift_xor_golayParity d

/-! ### The least weight -/

theorem weight_golayEncode (d : BitVec 12) : weight (golayEncode d) = weight (golayParity d) + weight d := by
  rw [golayEncode_eq_append]
  exact weight_append (golayParity d) d

/-- The data word of a code word rotated by 11: its parity bits above its data bit 11. -/
def golayRotated (d : BitVec 12) : BitVec 12 := (golayParity d ++ d.extractLsb' 11 1 : BitVec (11 + 1))

/-- The code is cyclic: a code word rotated by 11 bits is a code word. -/
theorem golayEncode_rotated (d : BitVec 12) :
    (golayRotated d ++ golayParity (golayRotated d) : BitVec (12 + 11)) = golayEncode d := by
  have hrot : IsLinear golayRotated := isLinear_golayParity.append (isLinear_extractLsb' 11)
  exact (hrot.append (isLinear_golayParity.comp hrot)).eq_of_twoPow isLinear_golayEncode (by decide +kernel) d

theorem weight_golayEncode_rotated (d : BitVec 12) :
    weight (golayEncode (golayRotated d)) = weight (golayEncode d) := by
  rw [← golayEncode_rotated d, weight_golayEncode, Nat.add_comm]
  exact (weight_append (golayRotated d) (golayParity (golayRotated d))).symm

/-- The code words of one to three data bits have at least seven ones: 298 words, tried one by one. -/
theorem seven_le_weight_of_mem_lightWords :
    ∀ d ∈ lightWords 3 12, d ≠ 0#12 → 7 ≤ weight (golayEncode d) :=
  List.all_iff_forall_prop.mp (by decide +kernel)

/-- A nonzero data word of at most three ones has a code word of at least seven. -/
theorem seven_le_weight_of_light {d : BitVec 12} (hd : d ≠ 0#12) (h : weight d ≤ 3) :
    7 ≤ weight (golayEncode d) :=
  seven_le_weight_of_mem_lightWords d (mem_lightWords h) hd

/-- The code word of a nonzero data word has at least seven ones: with six or fewer, its data bits or its parity bits
with data bit 11 would have at most three, and each of these two groups is the data word of a code word with as many
ones. -/
theorem seven_le_weight_golayEncode {d : BitVec 12} (hd : d ≠ 0#12) : 7 ≤ weight (golayEncode d) := by
  by_cases hlight : weight d ≤ 3
  · exact seven_le_weight_of_light hd hlight
  have hsum := weight_golayEncode d
  by_cases hparity : 3 ≤ weight (golayParity d)
  · omega
  have hrot : weight (golayRotated d) ≤ 3 := by
    have happend : weight (golayRotated d) = weight (golayParity d) + weight (d.extractLsb' 11 1) :=
      weight_append (golayParity d) (d.extractLsb' 11 1)
    have hbit := weight_le_width (d.extractLsb' 11 1)
    omega
  have hweight := weight_golayEncode_rotated d
  have hne : golayRotated d ≠ 0#12 := by
    intro h0
    rw [h0, isLinear_golayEncode.map_zero, weight_zero] at hweight
    omega
  have hseven := seven_le_weight_of_light hne hrot
  omega

/-- The number of ones in RES is that of the code word. -/
theorem weight_golayEncode_setWidth (d : BitVec 12) : weight ((golayEncode d).setWidth 32) = weight (golayEncode d) :=
  weight_setWidth (by decide) _

/-- Settles O49: the least weight is that of the data word 1. -/
theorem golayLeastWeightIsSeven : Obligations.GolayLeastWeightIsSeven := by
  refine ⟨fun d s hd => ⟨_, exec_golay d s, ?_⟩, fun s => ⟨1#12, _, by decide, exec_golay _ s, ?_⟩⟩
  · rw [weight_golayEncode_setWidth]
    exact seven_le_weight_golayEncode hd
  · decide +kernel

/-- What GOLAY is seen to leave in RES is the code word. -/
theorem res_of_exec_golay {d : BitVec 12} {s : State} {c : Word} (h : exec (.golay d) s = .next (afterResult s c)) :
    c = (golayEncode d).setWidth 32 := by
  cases (exec_golay d s).symm.trans h
  rfl

/-- Settles O50: the XOR of the two code words is the code word of the XOR of the data, and has at most six ones. -/
theorem golayCorrectsThreeErrors : Obligations.GolayCorrectsThreeErrors := by
  intro d d' s c c' e e' hc hc' he he' heq
  by_contra hne
  have hxor : (golayEncode (d ^^^ d')).setWidth 32 = e ^^^ e' := by
    rw [isLinear_golayEncode, BitVec.setWidth_xor, ← res_of_exec_golay hc, ← res_of_exec_golay hc']
    exact xor_eq_of_xor_eq heq
  have hseven := seven_le_weight_golayEncode (mt BitVec.xor_eq_zero_iff.mp hne)
  rw [← weight_golayEncode_setWidth, hxor] at hseven
  have hsix := weight_xor_le e e'
  omega

end Sys2Proof.Machine
end

section
/-! PROOFS. The CTCSS look-up and the tone-frequency scalings rule by rule (41_tone.md R68 to R71): the words that run
them, what each leaves in RES, and where the scalings are exact. -/

namespace Sys2Proof.Machine

open Sys2Proof.Safety

/-! ### The words of an opcode with one row -/

/-- A word with row `k`'s opcode runs that row's operation, if the bits between its field and OP are 0; otherwise it is
illegal. -/
theorem command_of_opcode (k : Nat) (hk : k < opcodeTable.length) {n m : Nat} (hnm : n + m = 28)
    (hmask : ∀ j < 32, opcodeTable[k].mask.getLsbD j = decide (n ≤ j))
    (hpattern : opcodeTable[k].pattern &&& opcodeTable[k].mask = opcodeTable[k].pattern)
    (hres : ReservedField (fieldOp opcodeTable[k].pattern) n m) {v : Word}
    (hop : v.extractLsb' 28 4 = opcodeTable[k].pattern.extractLsb' 28 4) (s : State) :
    (v.extractLsb' n m = 0#m → command v s = exec (opcodeTable[k].build v) s) ∧
      (v.extractLsb' n m ≠ 0#m → command v s = .next (afterIllegalCommand s)) := by
  have hzero : opcodeTable[k].pattern.extractLsb' n m = 0#m := (hres.2 _ (List.getElem_mem hk) rfl).2
  exact ⟨fun h => command_of_row_fields k hk hmask hpattern hop hnm (h.trans hzero.symm) s,
    fun h => command_of_decode_error (decode_of_reservedField hres hop h) s⟩

/-! ### The CTCSS look-up -/

/-- CTFREQ leaves the table entry. -/
theorem exec_ctfreq {i : BitVec 8} {s : State} (h : i.toNat < nCtcss) :
    exec (.ctfreq i) s = .next (afterResult s ((s.cfg.ctcssTable[i.toNat]).setWidth 32)) :=
  exec_of_value (lookup_of_lt h)

/-- Settles O14: the entry, its index's bound, and the reserved bits 27:8 of opcode 4. -/
theorem ctfreqRule : Obligations.CtfreqRule :=
  ⟨fun _ _ h => exec_ctfreq h, fun _ _ h => exec_of_outOfRange h, fun _ s hop =>
    command_of_opcode 4 (by decide) (n := 8) rfl (by decide) (by decide) (by decide) hop s⟩

/-! ### The CTCSS control word -/

/-- CTCW leaves the control word. -/
theorem exec_ctcw (t : BitVec 16) (s : State) :
    exec (.ctcw t) s = .next (afterResult s ((ctcssControlWord t).setWidth 32)) :=
  exec_of_value rfl

/-- The product of a 16-bit frequency fits 32 bits, so only the cut to 16 bits wraps. -/
theorem toNat_ctcssControlWord (t : BitVec 16) : (ctcssControlWord t).toNat = t.toNat * 2065 / 1000 % 2 ^ 16 := by
  have hproduct : (t.setWidth 32 * ctcssMul).toNat = t.toNat * 2065 := by
    rw [BitVec.toNat_mul, BitVec.toNat_setWidth_of_le (by decide)]
    have ht := t.isLt
    exact Nat.mod_eq_of_lt (show t.toNat * 2065 < 2 ^ 32 by omega)
  rw [ctcssControlWord, BitVec.toNat_setWidth, BitVec.toNat_udiv, hproduct]
  rfl

/-- Settles O15: the control word's value, and the reserved bits 27:16 of opcode 5. -/
theorem ctcwRule : Obligations.CtcwRule := by
  refine ⟨fun t s => ?_, fun _ s hop =>
    command_of_opcode 5 (by decide) (n := 16) rfl (by decide) (by decide) (by decide) hop s⟩
  rw [exec_ctcw, ← toNat_ctcssControlWord, BitVec.ofNat_toNat]

/-! ### The tone-generator scale word -/

/-- TGSCALE leaves the scale word. -/
theorem exec_tgscale (f : BitVec 16) (s : State) :
    exec (.tgscale f) s = .next (afterResult s ((toneGeneratorScale f).setWidth 32)) :=
  exec_of_value rfl

/-- The product and the sum each wrap at 32 bits. -/
theorem toNat_toneGeneratorScale (f : BitVec 16) : (toneGeneratorScale f).toNat =
    (f.toNat * 1353245 % 2 ^ 32 + 65536) % 2 ^ 32 / 2 ^ 17 % 2 ^ 16 := by
  rw [toneGeneratorScale, BitVec.toNat_setWidth, BitVec.toNat_ushiftRight, Nat.shiftRight_eq_div_pow, BitVec.toNat_add,
    BitVec.toNat_mul, BitVec.toNat_setWidth_of_le (by decide)]
  rfl

/-- Settles O16: the scale word's value, and the reserved bits 27:16 of opcode 6. -/
theorem tgscaleRule : Obligations.TgscaleRule := by
  refine ⟨fun f s => ?_, fun _ s hop =>
    command_of_opcode 6 (by decide) (n := 16) rfl (by decide) (by decide) (by decide) hop s⟩
  rw [exec_tgscale, ← toNat_toneGeneratorScale, BitVec.ofNat_toNat]

/-! ### Where the scalings are exact -/

/-- Up to 31736 tenths of Hz the control word fits 16 bits. -/
theorem toNat_ctcssControlWord_of_le {t : BitVec 16} (h : t.toNat ≤ 31736) :
    (ctcssControlWord t).toNat = t.toNat * 2065 / 1000 := by
  rw [toNat_ctcssControlWord]
  omega

/-- Up to 3173 Hz neither the product nor the sum wraps. -/
theorem toNat_toneGeneratorScale_of_le {f : BitVec 16} (h : f.toNat ≤ 3173) :
    (toneGeneratorScale f).toNat = (f.toNat * 1353245 + 65536) / 131072 := by
  have hproduct : f.toNat * 1353245 % 2 ^ 32 = f.toNat * 1353245 := Nat.mod_eq_of_lt (by omega)
  have hsum : (f.toNat * 1353245 + 65536) % 2 ^ 32 = f.toNat * 1353245 + 65536 := Nat.mod_eq_of_lt (by omega)
  rw [toNat_toneGeneratorScale, hproduct, hsum]
  omega

/-- The scale word is the top 15 bits of a 32-bit sum. -/
theorem toNat_toneGeneratorScale_lt (f : BitVec 16) : (toneGeneratorScale f).toNat < 2 ^ 15 := by
  rw [toNat_toneGeneratorScale]
  exact (Nat.mod_le _ _).trans_lt (Nat.div_lt_of_lt_mul (Nat.mod_lt _ (by decide)))

/-- Settles O53: from 3174 Hz up the exact scale has more than the 15 bits that the scale word can fill. -/
theorem scalingsAreExactInRange : Obligations.ScalingsAreExactInRange := by
  have hplaced (x : BitVec 16) : (x.setWidth 32).toNat = x.toNat := BitVec.toNat_setWidth_of_le (by decide)
  refine ⟨fun t s => ⟨_, exec_ctcw t s, ?_⟩, fun f s => ⟨_, exec_tgscale f s, ?_⟩, fun s => exec_ctcw tailTone s⟩
  · rw [hplaced]
    exact ⟨toNat_ctcssControlWord_of_le, fun _ => toNat_ctcssControlWord t⟩
  · rw [hplaced]
    refine ⟨toNat_toneGeneratorScale_of_le, fun h => ?_⟩
    have hlt := toNat_toneGeneratorScale_lt f
    omega

end Sys2Proof.Machine
end

section
/-! PROOFS. The RSSI conversions rule by rule (42_rssi.md R74 to R77): the words that run them, what each leaves in
RES, and the order of the S-meter levels. -/

namespace Sys2Proof.Machine

open Sys2Proof.Safety

/-! ### The corrected dBm -/

/-- RSSIDBM of a legal band leaves the corrected dBm. -/
theorem exec_rssidbm {b : BitVec 8} {s : State} (h : b.toNat < s.cfg.nBands) (r : BitVec 16) :
    exec (.rssidbm b r) s =
      .next (afterResult s (placeSigned (correctedDbm (s.cfg.rssiBaseAt r) s.cfg.dbmCorr[b.toNat]))) :=
  exec_of_value (lookup_of_lt (use := fun corr => placeSigned (correctedDbm (s.cfg.rssiBaseAt r) corr)) h)

/-- Settles O17: the corrected dBm, the band's bound, and the reserved bits 27:24 of opcode 7. -/
theorem rssidbmRule : Obligations.RssidbmRule :=
  ⟨fun _ r _ h => exec_rssidbm h r, fun _ _ _ h => exec_of_outOfRange h, fun _ s hop =>
    command_of_opcode 7 (by decide) (n := 24) rfl (by decide) (by decide) (by decide) hop s⟩

/-! ### The S-meter level -/

section Levels
variable {d d' : Int}

/-- From S9 up the level is 10 (42_rssi.md R75). -/
theorem sLevel_of_s9_le (h : -67 ≤ d) : sLevel d = 10 := if_pos h

/-- Below S9 the level is the least of 0..9 whose top is not exceeded; level 9, whose top is S9, always qualifies. -/
theorem sLevel_of_lt_s9 (h : d < -67) :
    sLevel d ≤ 9 ∧ d ≤ levelTop (sLevel d) ∧ ∀ k < sLevel d, levelTop k < d := by
  have hnine : d ≤ levelTop 9 := h.le
  obtain ⟨n, hn⟩ : ∃ n, (List.range sMax).find? (fun n => decide (d ≤ levelTop n)) = some n :=
    Option.isSome_iff_exists.mp (List.find?_isSome.mpr ⟨9, by decide, decide_eq_true hnine⟩)
  have hlevel : sLevel d = n := by
    rw [sLevel, if_neg (show ¬ s9Dbm ≤ d from Int.not_le.mpr h), hn, Option.getD_some]
  obtain ⟨htop, hmem, hleast⟩ := List.find?_range_eq_some.mp hn
  rw [hlevel]
  exact ⟨Nat.le_of_lt_succ (List.mem_range.mp hmem), of_decide_eq_true htop,
    fun k hk => by simpa using hleast k hk⟩

/-- A level is at most 10 (42_rssi.md R77 item 2). -/
theorem sLevel_le_ten (d : Int) : sLevel d ≤ 10 := by
  rcases Int.lt_or_le d (-67) with hlt | hge
  · exact (sLevel_of_lt_s9 hlt).1.trans (by decide)
  · exact (sLevel_of_s9_le hge).le

/-- The level is 10 exactly on the branch that PLUSDB takes (42_rssi.md R77 item 3). -/
theorem sLevel_eq_ten_iff : sLevel d = 10 ↔ -67 ≤ d := by
  refine ⟨fun h => Int.not_lt.mp fun hlt => ?_, sLevel_of_s9_le⟩
  have hnine := (sLevel_of_lt_s9 hlt).1
  omega

/-- A larger dBm value has no smaller level: its level's top would be below the smaller value (42_rssi.md R77
item 1). -/
theorem sLevel_mono (h : d ≤ d') : sLevel d ≤ sLevel d' := by
  rcases Int.lt_or_le d' (-67) with hlt | hge
  · obtain ⟨-, htop, -⟩ := sLevel_of_lt_s9 hlt
    obtain ⟨-, -, hleast⟩ := sLevel_of_lt_s9 (h.trans_lt hlt)
    exact Nat.not_lt.mp fun hless => absurd (hleast _ hless) (Int.not_lt.mpr (h.trans htop))
  · rw [sLevel_of_s9_le hge]
    exact sLevel_le_ten d

end Levels

/-- SLEVEL leaves the level, which fits the four bits it is computed in. -/
theorem exec_slevel (d : BitVec 16) (s : State) :
    exec (.slevel d) s = .next (afterResult s (BitVec.ofNat 32 (sLevel d.toInt))) := by
  have hlt : sLevel d.toInt < 2 ^ 4 := (sLevel_le_ten _).trans_lt (by decide)
  rw [← BitVec.setWidth_ofNat_of_le_of_lt (by decide) hlt]
  exact exec_of_value rfl

/-- Settles O18: the level's two cases, and the reserved bits 27:16 of opcode 8. -/
theorem slevelRule : Obligations.SlevelRule :=
  ⟨fun d s => ⟨sLevel d.toInt, exec_slevel d s, sLevel_of_s9_le, sLevel_of_lt_s9⟩, fun _ s hop =>
    command_of_opcode 8 (by decide) (n := 16) rfl (by decide) (by decide) (by decide) hop s⟩

/-! ### The "+dB over S9" figure -/

/-- PLUSDB leaves the figure. -/
theorem exec_plusdb (d : BitVec 16) (s : State) :
    exec (.plusdb d) s = .next (afterResult s ((plusDb d.toInt).signExtend 32)) :=
  exec_of_value rfl

/-- From S9 up the figure is the wrapped distance to S9 (42_rssi.md R76). -/
theorem plusDb_of_s9_le {d : Int} (h : -67 ≤ d) : plusDb d = BitVec.ofInt 16 (d + 67) := if_pos h

/-- Below S9 the figure is 0 (42_rssi.md R76). -/
theorem plusDb_of_not_s9_le {d : Int} (h : ¬ -67 ≤ d) : plusDb d = 0#16 := if_neg h

/-- Settles O19: the figure's two cases, and the reserved bits 27:16 of opcode 9. -/
theorem plusdbRule : Obligations.PlusdbRule := by
  refine ⟨fun d s => ?_, fun _ s hop =>
    command_of_opcode 9 (by decide) (n := 16) rfl (by decide) (by decide) (by decide) hop s⟩
  rw [exec_plusdb]
  split_ifs with h
  · rw [plusDb_of_s9_le h]
  · rw [plusDb_of_not_s9_le h]
    rfl

/-- Up to 32700 dBm the figure does not wrap to a negative one (42_rssi.md R77 item 4). -/
theorem plusDb_nonneg {d : Int} (h : d ≤ 32700) : 0 ≤ (plusDb d).toInt := by
  by_cases hs9 : -67 ≤ d
  · rw [plusDb_of_s9_le hs9, BitVec.toInt_ofInt_eq_self (by decide) (by omega) (by omega)]
    omega
  · rw [plusDb_of_not_s9_le hs9]
    decide

/-- Settles O54: the level is read back as the number it is, and the figure keeps its sign. -/
theorem sMeterProperties : Obligations.SMeterProperties := by
  have hplaced (x : Int) : (BitVec.ofNat 32 (sLevel x)).toNat = sLevel x :=
    Nat.mod_eq_of_lt ((sLevel_le_ten x).trans_lt (by decide))
  refine ⟨fun d d' s => ⟨_, _, exec_slevel d s, exec_slevel d' s, ?_⟩, fun d s => ⟨_, exec_plusdb d s, fun h => ?_⟩⟩
  · rw [hplaced, hplaced]
    exact ⟨sLevel_mono, sLevel_le_ten _, sLevel_eq_ten_iff⟩
  · rw [BitVec.toInt_signExtend_of_le (by decide)]
    exact plusDb_nonneg h

end Sys2Proof.Machine
end

section
/-! PROOFS. The three errors of the TCU (60_exceptions.md): which commands and accesses raise each, what its entry
changes (R80 to R89), and that no error stops the machine (R78). -/

namespace Sys2Proof.Machine

open Sys2Proof.Safety

/-! ### The two errors of a command -/

/-- Settles O20: an index out of range ends the command in IndexError, and in range it computes a placed result. -/
theorem indexErrorExactlyOutOfRange : Obligations.IndexErrorExactlyOutOfRange := by
  intro i s
  refine ⟨exec_of_outOfRange, fun hin => ?_⟩
  obtain ⟨r, hplaced, hr⟩ := executeOf_of_inRange hin
  exact ⟨r, hplaced, exec_of_value hr⟩

/-- Settles O21: the decoder accepts exactly the legal words, and no instruction touches ILLOP. -/
theorem illegalCommandExactlyIllegalWords : Obligations.IllegalCommandExactlyIllegalWords := by
  intro v s
  refine ⟨fun hl => ?_, fun hl => ?_⟩
  · obtain ⟨e, he⟩ := decode_error_of_not_legal hl
    exact command_of_decode_error he s
  · obtain ⟨i, hd⟩ := decode_ok_of_legal hl
    have hexec := exec_eq i s
    obtain ⟨-, -, -, -, hillop, -⟩ := commandFrame i s _ hexec
    exact ⟨i, _, hd, command_of_decode_ok hd s, hexec, hillop⟩

/-! ### Bus errors -/

section BusErrors
variable {s : State} {m : Nat} {a : Access} {rest : List BusEvent}

/-- A bad access of the one master is answered with a bus error, and that is all. -/
theorem step_badAccess (ho : mayAccess s m) (hp : s.pending = .access m a :: rest) (hb : badAccess a) :
    step s = .next (answered s m rest .busError) :=
  (step_access hp ho).trans (access_busError _ (a.isBusError_iff.mpr hb))

/-- An access that is not bad is answered with data. -/
theorem access_of_not_badAccess (hb : ¬ badAccess a) (s : State) :
    ∃ data t, access a s = .next ((s.respond (.ok data)).withTcu t) := by
  have herr : a.isBusError = false := Bool.eq_false_iff.mpr (mt a.isBusError_iff.mp hb)
  cases Access.good_of_not_busError herr with
  | readReg off v ho => exact ⟨_, s.tcu, access_read s v ho⟩
  | cmd v => exact ⟨0#32, _, command_eq v _⟩
  | resWrite v => exact ⟨0#32, s.tcu, access_resWrite s v⟩
  | stsWrite v => exact ⟨0#32, _, access_stsWrite s v⟩

/-- An access of the one master that is not bad is answered with data. -/
theorem step_of_not_badAccess (ho : mayAccess s m) (hp : s.pending = .access m a :: rest) (hb : ¬ badAccess a) :
    ∃ t data, step s = .next t ∧ t.responses = .ok data :: s.responses := by
  obtain ⟨data, t, ht⟩ := access_of_not_badAccess hb ((s.take rest).own m)
  exact ⟨_, data, (step_access hp ho).trans ht, rfl⟩

end BusErrors

/-- Settles O26. -/
theorem busErrorExactlyBadAccesses : Obligations.BusErrorExactlyBadAccesses :=
  fun _ _ _ _ hp ho => ⟨step_badAccess ho hp, step_of_not_badAccess ho hp⟩

/-! ### The order of the checks, and precise errors -/

section TakenAccess
variable {s t : State} {m : Nat} {a : Access} {v : Word} {rest : List BusEvent}

/-- A step that took a bad access answered it with a bus error and changed nothing else. -/
theorem eq_answered_of_badAccess (h : step s = .next t) (hp : s.pending = .access m a :: rest) (hb : badAccess a) :
    t = answered s m rest .busError := by
  cases h.symm.trans (step_badAccess (mayAccess_of_step h hp) hp hb)
  rfl

/-- A step that answered a bus error took a bad access. -/
theorem badAccess_of_busError (h : step s = .next t) (hp : s.pending = .access m a :: rest)
    (hr : t.responses = .busError :: s.responses) : badAccess a := by
  by_contra hb
  obtain ⟨u, data, hu, hdata⟩ := step_of_not_badAccess (mayAccess_of_step h hp) hp hb
  cases h.symm.trans hu
  simp [hr] at hdata

/-- A step that took a command write answered it and left the TCU as its word says. -/
theorem eq_answered_of_cmdWrite (h : step s = .next t) (hp : s.pending = .access m (write32 0x0#4 v) :: rest) :
    t = (answered s m rest (.ok 0#32)).withTcu (tcuAfterCommand s.cfg v s.tcu) := by
  cases h.symm.trans ((step_cmdWrite (mayAccess_of_step h hp) hp).trans (command_eq v _))
  rfl

/-- A step that took an access and left VALID 0 left RES alone (60_exceptions.md R89). -/
theorem StepEffect.res_of_not_valid {t' : TcuState} (h : StepEffect s t') (hp : s.pending = .access m a :: rest)
    (hv : t'.valid = false) : t'.res = s.tcu.res := by
  cases h with
  | quiet => rfl
  | reset rest' hreset => cases hp.symm.trans hreset
  | command m' v rest' _ he => exact he.res_of_not_valid hv
  | stsWrite m' v rest' _ => rfl

/-- A step that took an access that is no command write did not set ILLOP. -/
theorem illop_of_no_cmdWrite (h : step s = .next t) (hp : s.pending = .access m a :: rest)
    (ha : ∀ v, a ≠ write32 0x0#4 v) (h1 : t.tcu.illop = true) : s.tcu.illop = true := by
  by_contra h0
  obtain ⟨m', v, rest', hcmd, -⟩ := (step_effect h).event_of_illop_set (Bool.eq_false_iff.mpr h0) h1
  cases hp.symm.trans hcmd
  exact ha v rfl

/-- A step that took an access that is no command write did not set IDXERR. -/
theorem idxerr_of_no_cmdWrite (h : step s = .next t) (hp : s.pending = .access m a :: rest)
    (ha : ∀ v, a ≠ write32 0x0#4 v) (h1 : t.tcu.idxerr = true) : s.tcu.idxerr = true := by
  by_contra h0
  obtain ⟨m', v, i, rest', hcmd, -⟩ := (step_effect h).event_of_idxerr_set (Bool.eq_false_iff.mpr h0) h1
  cases hp.symm.trans hcmd
  exact ha v rfl

end TakenAccess

/-- No legal word touches ILLOP. -/
theorem tcuAfterCommand_illop_of_legal {v : Word} (hl : legal v = true) (c : Config) (t : TcuState) :
    (tcuAfterCommand c v t).illop = t.illop := by
  obtain ⟨i, hd⟩ := decode_ok_of_legal hl
  rw [tcuAfterCommand, hd]
  dsimp only
  cases executeOf c i <;> rfl

/-- Settles O29: a bad access, a command write and any other access, each with what it answers and sets. -/
theorem errorChecksInOrder : Obligations.ErrorChecksInOrder := by
  intro s t m a rest hp h
  refine ⟨fun hb => ?_, ?_, fun _ ha => ⟨illop_of_no_cmdWrite h hp ha, idxerr_of_no_cmdWrite h hp ha⟩⟩
  · cases eq_answered_of_badAccess h hp hb
    exact ⟨rfl, rfl⟩
  · rintro v rfl
    cases eq_answered_of_cmdWrite h hp
    refine ⟨rfl, fun hl => ?_, fun hl => tcuAfterCommand_illop_of_legal hl _ _⟩
    rw [State.withTcu_tcu, tcuAfterCommand_of_not_legal hl]
    exact ⟨rfl, rfl⟩

/-- Settles O30: the entry of each error, and RES after any access that leaves VALID 0. -/
theorem noPartialResult : Obligations.NoPartialResult := by
  intro s t m a rest hp h
  have hbad : badAccess a → t.tcu = s.tcu := fun hb => by rw [eq_answered_of_badAccess h hp hb]; rfl
  refine ⟨fun hb => ⟨hbad hb, step_cfg h⟩, ?illegal, ?outOfRange,
    fun hr => hbad (badAccess_of_busError h hp hr), (step_effect h).res_of_not_valid hp⟩
  case illegal =>
    rintro v rfl hl
    refine ⟨?_, step_cfg h⟩
    rw [eq_answered_of_cmdWrite h hp]
    exact tcuAfterCommand_of_not_legal hl _
  case outOfRange =>
    rintro v i rfl hd hout
    refine ⟨?_, step_cfg h⟩
    rw [eq_answered_of_cmdWrite h hp]
    exact tcuAfterCommand_of_outOfRange hd hout _

/-! ### No error stops the machine -/

/-- With one master's accesses and resets pending, a step takes the oldest event, if there is one, answers it if it is
an access, and leaves the machine to that master. -/
theorem step_of_soleMaster {s : State} {m : Nat} (ho : mayAccess s m) (hsole : soleMaster m s.pending) :
    ∃ t, step s = .next t ∧ mayAccess t m ∧
      t.responses.length = s.responses.length + ((s.pending.take 1).filter isAccess).length := by
  cases hp : s.pending with
  | nil => exact ⟨s, step_idle hp, ho, rfl⟩
  | cons e rest =>
    rcases hsole e (hp ▸ List.mem_cons_self) with rfl | ⟨a, rfl⟩
    · exact ⟨_, step_take hp, ho, rfl⟩
    · obtain ⟨r, t, ht, -⟩ := access_next a ((s.take rest).own m)
      exact ⟨_, (step_access hp ho).trans ht, .inr rfl, rfl⟩

/-- The accesses among the first `k + 1` events are those of the first event and those of the next `k`. -/
theorem length_accesses_take_succ (events : List BusEvent) (k : Nat) :
    ((events.take (k + 1)).filter isAccess).length =
      ((events.take 1).filter isAccess).length + ((events.tail.take k).filter isAccess).length := by
  rw [Nat.add_comm k 1, List.take_add, List.filter_append, List.length_append, List.drop_one]

/-- Settles O46, by induction on the number of steps: the first takes one event and leaves a program of the same
master. -/
theorem soleMasterNeverStops : Obligations.SoleMasterNeverStops := by
  intro m k
  induction k with
  | zero => exact fun s _ _ => ⟨s, run_zero s, rfl, rfl⟩
  | succ k ih =>
    intro s ho hsole
    obtain ⟨u, hu, hou, hanswered⟩ := step_of_soleMaster ho hsole
    have hpending : u.pending = s.pending.tail := step_pending hu
    have hrest : soleMaster m u.pending := fun e he => hsole e (List.mem_of_mem_tail (hpending ▸ he))
    obtain ⟨t, ht, hleft, hlen⟩ := ih u hou hrest
    refine ⟨t, (run_succ_of_next k hu).trans ht, ?_, ?_⟩
    · rw [hleft, hpending, List.drop_tail]
    · rw [hlen, hanswered, hpending, length_accesses_take_succ _ k, Nat.add_assoc]

end Sys2Proof.Machine
end

section
/-! PROOFS. The statements about reset, waiting and the stale result (70_reset_and_hazards.md). -/

namespace Sys2Proof.Machine

open Sys2Proof.Safety

/-! ### The stale result -/

/-- Two command writes in a row run the second word on the TCU state that the first left. -/
theorem run_two_commands {s : State} {m : Nat} {v w : Word} {rest : List BusEvent} (ho : mayAccess s m)
    (hp : s.pending = .access m (cmdWrite v) :: .access m (cmdWrite w) :: rest) :
    ∃ t, Sys2Proof.core.run 2 s = .next t ∧
      t.tcu = tcuAfterCommand s.cfg w (tcuAfterCommand s.cfg v s.tcu) := by
  have hfirst := step_of_accessGives hp ho (accessGives_cmd v)
  exact ⟨_, (run_succ_of_next 1 hfirst).trans
    (run_succ_of_next 0 (step_of_accessGives rfl (.inr rfl) (accessGives_cmd w))), rfl⟩

/-- Settles O33: each ending of the second command, from the TCU state that holds the first result. -/
theorem staleResultShowsInValid : Obligations.StaleResultShowsInValid := by
  intro s m v w i rest ho hp hd hin
  obtain ⟨r, -, hr⟩ := executeOf_of_inRange hin
  obtain ⟨t, hrun, ht⟩ := run_two_commands ho hp
  rw [tcuAfterCommand_of_value hd hr] at ht
  refine ⟨r, t, exec_of_value hr, hrun, fun hl => ?illegal, fun j hj hout => ?outOfRange, fun j hj hin' => ?result⟩
  case illegal =>
    rw [ht, tcuAfterCommand_of_not_legal hl]
    exact ⟨rfl, rfl⟩
  case outOfRange =>
    rw [ht, tcuAfterCommand_of_outOfRange hj hout]
    exact ⟨rfl, rfl⟩
  case result =>
    obtain ⟨x, -, hx⟩ := executeOf_of_inRange hin'
    rw [ht, tcuAfterCommand_of_value hj hx]
    exact ⟨exec_of_value hx, rfl⟩

/-! ### Reset and waiting -/

/-- Settles O43: a reset is taken like any event, and its effect is `TcuState.reset`. -/
theorem resetPutsTheResetValues : Obligations.ResetPutsTheResetValues :=
  ⟨fun _ _ hp => step_take hp, rfl⟩

/-- Settles O44. -/
theorem waitsForAccesses : Obligations.WaitsForAccesses := fun _ => step_idle

end Sys2Proof.Machine
end
